-- ==== Sys2Proof/Word.lean ====
section
/-! DEFINITION. The unit of both byte spaces (20_memory.md R20, R25) and the numeric value of a byte. -/

namespace Sys2Proof

/-- A byte, 0 to 255 (00_scope.md section 5). -/
abbrev Byte := BitVec 8

end Sys2Proof
end

