-- ==== Sys2Proof/Config.lean ====
section
/-! DEFINITION. What an instance of the block fixes: the port widths (00_scope.md R5), the open parameters of the
board's register map (R6, R27), and the free values of the unspecified response ports (30_encoding.md R40). -/

namespace Sys2Proof

/-- The port widths of R5. `inW` and `outW` are IN_W and OUT_W, `bufMax` is BUF_MAX, `lenW` is LEN_W. -/
structure PortWidths where
  inW    : Nat
  outW   : Nat
  bufMax : Nat
  lenW   : Nat
  deriving DecidableEq, Repr

/-- The constraint column of R5. -/
abbrev PortWidths.Legal (c : PortWidths) : Prop :=
  13 ≤ c.inW ∧ 16 ≤ c.outW ∧ 2 ≤ c.bufMax ∧ c.bufMax < 2 ^ c.lenW

namespace Config

/-- The default column of R5 (92_eei_decisions.md D4, D5, D7). DESIGN CHOICE of the spec, log entry 4: safe, because
every decoding and every response port is defined for all widths and the defaults only pick the ports of State. -/
abbrev widths : PortWidths := { inW := 32, outW := 32, bufMax := 8, lenW := 4 }

/-! The open parameters of R6 and D15, D19. No operation reads them, their values "must not be derived or guessed", and
no relation among them is assumed (R27), so each is a constant without a body (log entry 13). -/

/-- DEV_ADDR: the board's address on the bus, a natural number whose width is not stated. -/
opaque devAddr : Nat

/-- REG_MOTOR_TYPE. -/
opaque regMotorType : BitVec 8

/-- REG_DEADZONE. -/
opaque regDeadzone : BitVec 8

/-- REG_MAG_LINES. -/
opaque regMagLines : BitVec 8

/-- REG_REDUCTION. -/
opaque regReduction : BitVec 8

/-- REG_WHEEL_DIA. -/
opaque regWheelDia : BitVec 8

/-- REG_SPEED. -/
opaque regSpeed : BitVec 8

/-- REG_PWM. -/
opaque regPwm : BitVec 8

/-- REG_BATTERY. -/
opaque regBattery : BitVec 8

/-- REG_ENC_M1. -/
opaque regEncM1 : BitVec 8

/-- REG_ENC_M2, one of the three further open parameters of D19. That the register has M1's format is not assumed. -/
opaque regEncM2 : BitVec 8

/-- REG_ENC_M3 (D19). -/
opaque regEncM3 : BitVec 8

/-- REG_ENC_M4 (D19). -/
opaque regEncM4 : BitVec 8

/-! Free values (log entry 3). R40 leaves every response port outside the response's format unspecified, "any bit
pattern, possibly different each time": the argument `draw` is a fresh number for each step. -/

/-- `rsp_err` while no request is presented. -/
opaque freeErr (draw : Nat) : Bool

/-- `rsp_pay[lane]` where it carries no result. -/
opaque freePay (draw lane : Nat) : Byte

/-- `rsp_volts` where it carries no result. -/
opaque freeVolts (draw : Nat) : BitVec 64

/-- `rsp_ticks`, of the given width, where it carries no result. -/
opaque freeTicks (width draw : Nat) : BitVec width

end Config

end Sys2Proof
end

