-- ==== Sys2Proof/Syntax.lean ====
section
/-! DEFINITION. The four operations as data (30_encoding.md R47) and the request ports that carry them (R36). -/

namespace Sys2Proof

/-- The four motor channels (00_scope.md section 6). Their ordinals are in Machine/Operands.lean. -/
inductive MotorChannel where
  | m1 | m2 | m3 | m4
  deriving DecidableEq, Repr

/-- The four channels in ordinal order. -/
def MotorChannel.all : List MotorChannel := [.m1, .m2, .m3, .m4]

/-- One value for each motor channel. -/
structure Lanes (α : Type) where
  m1 : α
  m2 : α
  m3 : α
  m4 : α
  deriving DecidableEq, Repr

/-- The value of one channel. -/
def Lanes.get {α : Type} (x : Lanes α) : MotorChannel → α
  | .m1 => x.m1
  | .m2 => x.m2
  | .m3 => x.m3
  | .m4 => x.m4

/-- The same function on every channel. -/
def Lanes.map {α β : Type} (f : α → β) (x : Lanes α) : Lanes β :=
  { m1 := f x.m1, m2 := f x.m2, m3 := f x.m3, m4 := f x.m4 }

/-- The same value on every channel. -/
def Lanes.same {α : Type} (v : α) : Lanes α := { m1 := v, m2 := v, m3 := v, m4 := v }

/-- The operation set (R37, R47), one constructor per row of spec/opcode_table.json. Channel operands are integers of
any size and a read buffer has any length: "four integers, any range", `buf: bytes` (R41). -/
inductive Instr where
  /-- ENCODE_SPEEDS (40_encode.md R51): one speed command per channel. -/
  | encodeSpeeds (x : Lanes Int)
  /-- ENCODE_PWM (R52): one PWM duty per channel. -/
  | encodePwm (x : Lanes Int)
  /-- DECODE_BATTERY (41_decode.md R63): the bytes of a battery register read. -/
  | decodeBattery (buf : List Byte)
  /-- DECODE_ENCODER (R65): the bytes of an encoder register read. -/
  | decodeEncoder (buf : List Byte)
  deriving DecidableEq, Repr

/-- The request ports (R36), sampled together as one request when `valid` is true. -/
structure ReqPorts (c : PortWidths) where
  /-- `req_valid`. -/
  valid : Bool
  /-- `req_op`. -/
  op    : BitVec 2
  /-- `req_ch[0..3]`. -/
  ch    : Lanes (BitVec c.inW)
  /-- `req_len`. -/
  len   : BitVec c.lenW
  /-- `req_buf[0..BUF_MAX-1]`. -/
  buf   : Vector Byte c.bufMax
  deriving DecidableEq, Repr

/-- The two request formats (R35): E reads the channel lanes, D reads the length and the buffer. -/
inductive ReqFormat where
  | formatE | formatD
  deriving DecidableEq, Repr

end Sys2Proof
end

