-- ==== Sys2Proof/WellFormed.lean ====
section
/-! DEFINITION. Which instructions the request ports carry whole. An instruction that is not well formed still has its
meaning (R41: the rules hold for any integers and any buffer); it has no request port setting of its own. -/

namespace Sys2Proof

/-- An integer a signed port of `w` bits can carry (R36, R41). -/
def fitsSigned (w : Nat) (v : Int) : Bool :=
  decide (-(2 : Int) ^ w ≤ 2 * v) && decide (2 * v < (2 : Int) ^ w)

/-- Every channel operand fits its port. -/
def operandsFit (w : Nat) (x : Lanes Int) : Bool :=
  fitsSigned w x.m1 && fitsSigned w x.m2 && fitsSigned w x.m3 && fitsSigned w x.m4

/-- A buffer with a byte lane for each of its bytes (R36). -/
def bufferFits (c : PortWidths) (buf : List Byte) : Bool := decide (buf.length ≤ c.bufMax)

/-- The request ports of widths `c` carry every operand of the instruction (log entry 9). -/
def Instr.wellFormed (c : PortWidths) : Instr → Bool
  | .encodeSpeeds x => operandsFit c.inW x
  | .encodePwm x => operandsFit c.inW x
  | .decodeBattery buf => bufferFits c buf
  | .decodeEncoder buf => bufferFits c buf

end Sys2Proof
end

