-- ==== Sys2Proof/Decode.lean ====
section
/-! DEFINITION. From request ports to an instruction (30_encoding.md R37, R41) and back. The ports are what this
hardware has in the place of instruction words (R36); the 2-bit select is full, so the only setting that is rejected is
the one that presents no request (R40, R43). The operation codes are the spec's decision D3 (log entry 5). -/

namespace Sys2Proof

/-- Why a port setting is no instruction. -/
inductive Reject where
  /-- `req_valid` is 0: no request is presented (R36, R40). -/
  | noRequest
  deriving DecidableEq, Repr

/-- `x[i]`: the signed value of each channel port (R41). -/
def channelOperands {c : PortWidths} (p : ReqPorts c) : Lanes Int := p.ch.map BitVec.toInt

/-- `buf[j]` for `0 ≤ j < min(len, BUF_MAX)` (R41). With `req_len` above BUF_MAX the caller presents the first BUF_MAX
bytes, which are the buffer here (DEDUCED, log entry 7: safe). -/
def readBuffer {c : PortWidths} (p : ReqPorts c) : List Byte := p.buf.toList.take p.len.toNat

/-- The operation table of R37. -/
def selectOperation (op : BitVec 2) (x : Lanes Int) (buf : List Byte) : Instr :=
  if op = 0#2 then .encodeSpeeds x
  else if op = 1#2 then .encodePwm x
  else if op = 2#2 then .decodeBattery buf
  else .decodeEncoder buf

/-- The instruction a setting of the request ports presents; total, and never refused when a request is presented. -/
def decode {c : PortWidths} (p : ReqPorts c) : Except Reject Instr :=
  if p.valid then .ok (selectOperation p.op (channelOperands p) (readBuffer p)) else .error .noRequest

/-- `req_op` of an instruction (R37). -/
def Instr.opcode : Instr → BitVec 2
  | .encodeSpeeds _ => 0#2
  | .encodePwm _ => 1#2
  | .decodeBattery _ => 2#2
  | .decodeEncoder _ => 3#2

/-- The request format column of R37. -/
def Instr.format : Instr → ReqFormat
  | .encodeSpeeds _ => .formatE
  | .encodePwm _ => .formatE
  | .decodeBattery _ => .formatD
  | .decodeEncoder _ => .formatD

/-- The channel operands an instruction puts on `req_ch`. A format D request ignores the lanes (R39); zero is driven. -/
def Instr.channels : Instr → Lanes Int
  | .encodeSpeeds x => x
  | .encodePwm x => x
  | .decodeBattery _ => Lanes.same 0
  | .decodeEncoder _ => Lanes.same 0

/-- The bytes an instruction puts on `req_buf`. A format E request ignores them (R39); the empty buffer is presented. -/
def Instr.buffer : Instr → List Byte
  | .encodeSpeeds _ => []
  | .encodePwm _ => []
  | .decodeBattery buf => buf
  | .decodeEncoder buf => buf

/-- The byte lanes of a buffer: its first bytes, and zero on a lane that has no byte (R36: a lane at or above `req_len`
is not meaningful). -/
def bufferLanes (n : Nat) (buf : List Byte) : Vector Byte n :=
  ⟨(buf.take n ++ List.replicate (n - buf.length) 0#8).toArray, by
    simp only [List.size_toArray, List.length_append, List.length_take, List.length_replicate]; omega⟩

/-- The length port. Its largest value stands for every length it cannot carry, which R41 makes harmless: any length of
two or more behaves alike (DESIGN CHOICE, log entry 8: safe). -/
def lengthPort (w len : Nat) : BitVec w := BitVec.ofNat w (min len (2 ^ w - 1))

/-- The request ports an instruction is presented on; for a well-formed instruction `decode` gives it back. -/
def encode (c : PortWidths) (i : Instr) : ReqPorts c :=
  { valid := true
    op := i.opcode
    ch := i.channels.map (BitVec.ofInt c.inW)
    len := lengthPort c.lenW i.buffer.length
    buf := bufferLanes c.bufMax i.buffer }

/-- No request: `req_valid` is 0. The other ports are then not sampled (R36). -/
def idlePorts (c : PortWidths) : ReqPorts c :=
  { valid := false, op := 0#2, ch := Lanes.same 0, len := 0, buf := Vector.replicate c.bufMax 0#8 }

/-- The request whose `req_op` is bits 1 to 0 of an opcode-table word; `match` and `mask` are over that port (R37), so
bits above it belong to no port (log entry 6). Every operand port is zero. -/
def tableRequest (c : PortWidths) (w : Nat) : ReqPorts c :=
  { idlePorts c with valid := true, op := BitVec.ofNat 2 w }

/-- What the decoder reads from a word of spec/opcode_table.json. -/
def decodeTableWord (_nbits w : Nat) : Option Instr :=
  match decode (tableRequest Config.widths w) with
  | .ok i => some i
  | .error .noRequest => none

end Sys2Proof
end

