-- ==== Sys2Proof/Machine/State.lean ====
section
/-! DEFINITION. The state of the machine, plain data. The block itself holds nothing from one request to the next
(10_state.md R13): the fields are the requests the caller has yet to present, the block's response ports, and the record
of requests and responses that R13 allows a model. -/

namespace Sys2Proof.Machine

/-- The 8 bytes of an encode result (R4 PAYLOAD_LEN, R21). -/
abbrev Payload := Vector Byte 8

/-- The result of one operation (30_encoding.md R47). `volts raw` is the reading `raw / 10` volts. -/
inductive Response where
  | payload (pay : Payload)
  | volts (raw : Nat)
  | ticks (t : Int)
  /-- A decode was given fewer than two bytes (60_exceptions.md R70). It carries no value (R8, R40). -/
  | shortRead
  deriving DecidableEq, Repr

/-- The four response formats (R35). -/
inductive RspFormat where
  | formatP | formatV | formatT | formatX
  deriving DecidableEq, Repr

/-- The response ports (R38). -/
structure RspPorts (c : PortWidths) where
  /-- `rsp_valid`. -/
  valid : Bool
  /-- `rsp_err`: false is 0, success; true is 1, ShortRead. -/
  err   : Bool
  /-- `rsp_pay[0..7]`. -/
  pay   : Payload
  /-- `rsp_volts`, a binary64 bit pattern. -/
  volts : BitVec 64
  /-- `rsp_ticks`. -/
  ticks : BitVec c.outW
  deriving DecidableEq, Repr

/-- A request that was served, with its response. -/
structure Exchange where
  request  : Instr
  response : Response
  deriving DecidableEq, Repr

/-- The machine. INVENTORY.md lists each field with its rule and its reset value. -/
structure State where
  /-- What the caller will put on the request ports, one element per step, head first (70_reset_and_hazards.md R93). -/
  requests : List (ReqPorts Config.widths)
  /-- The response ports as the last step left them (R38). -/
  rsp      : RspPorts Config.widths
  /-- Served requests and their responses, oldest first (10_state.md R13; R93). No step reads it. -/
  history  : List Exchange
  /-- How many draws of unspecified port values have been made (log entry 3). -/
  draws    : Nat
  deriving DecidableEq, Repr

/-- No step faults: the failure taxonomy is complete with ShortRead, which is a response (60_exceptions.md R71, R75),
and TransportError, which never reaches the block (R72). So there is no reason to list (log entry 16). -/
inductive Fault where
  deriving DecidableEq, Repr

/-- Why an instruction is refused. -/
inductive Refusal where
  /-- Raised by an arm of `exec` whose instruction has no meaning yet; safe. Every instruction has one, so none does. -/
  | notModelled (mnemonic : String)
  deriving DecidableEq, Repr

/-- The eight payload ports where they carry no result (R40). -/
def freePayload (draw : Nat) : Payload :=
  #v[Config.freePay draw 0, Config.freePay draw 1, Config.freePay draw 2, Config.freePay draw 3,
     Config.freePay draw 4, Config.freePay draw 5, Config.freePay draw 6, Config.freePay draw 7]

/-- The response ports while no request is presented: `rsp_valid` is 0 and all else is unspecified (R18, R40). -/
def quietPorts (c : PortWidths) (draw : Nat) : RspPorts c :=
  { valid := false
    err := Config.freeErr draw
    pay := freePayload draw
    volts := Config.freeVolts draw
    ticks := Config.freeTicks c.outW draw }

/-- The machine before any request has been presented: `rsp_valid` is 0 (R18, R85) and every other response port has an
unspecified value, draw 0. The three fields that are the model's own start empty, and at draw 1 (DESIGN CHOICE, log
entries 1, 2 and 3). -/
def State.reset : State :=
  { requests := [], rsp := quietPorts Config.widths 0, history := [], draws := 1 }

end Sys2Proof.Machine
end

