-- ==== Sys2Proof/Machine/Operands.lean ====
section
/-! DEFINITION. The hardwired constants (00_scope.md R4), the helpers of 00_scope.md section 5 (R19), and the byte
accesses to the read buffer and the payload (20_memory.md R20 to R25). -/

namespace Sys2Proof.Machine

/-! Constants (R4, R16). The document's literals are unaudited and taken as written (D23, U1, log entry 12). -/

/-- N_CH. -/
def nCh : Nat := 4

/-- FIELD_BYTES. -/
def fieldBytes : Nat := 2

/-- PAYLOAD_LEN, the length in the type of `Payload`. -/
def payloadLen : Nat := nCh * fieldBytes

/-- SPEED_LIMIT. -/
def speedLimit : Int := 1000

/-- PWM_LIMIT. -/
def pwmLimit : Int := 3600

/-- BATT_DIV. -/
def battDiv : Nat := 10

/-- MIN_READ. -/
def minRead : Nat := 2

/-- TWO16. -/
def two16 : Int := 65536

/-- The fixed ordinals of the channels (00_scope.md section 6). -/
def channelOrdinal : MotorChannel → Nat
  | .m1 => 0
  | .m2 => 1
  | .m3 => 2
  | .m4 => 3

/-- `offset = ordinal x 2` (R21). -/
def channelOffset (k : MotorChannel) : Nat := channelOrdinal k * fieldBytes

/-! Arithmetic helpers. -/

/-- `clamp(v, lo, hi)` (R19), a comparison of whole integers (40_encode.md R54 a). -/
def clamp (v lo hi : Int) : Int := if v < lo then lo else if v > hi then hi else v

/-- `to_u16(c)` for -32768 ≤ c ≤ 32767 (R19): two's complement (D24, log entry 11). -/
def toU16 (c : Int) : Nat := (if 0 ≤ c then c else c + two16).toNat

/-- `v[hi:lo]` (00_scope.md section 5). -/
def bitsOf (v hi lo : Nat) : Nat := v / 2 ^ lo % 2 ^ (hi + 1 - lo)

/-- `s16(u)` for u ≤ 65535 (R19, R65): subtract 65536 when bit 15 is set. -/
def s16 (u : Nat) : Int := if bitsOf u 15 15 = 1 then (u : Int) - two16 else u

/-! Byte accesses. -/

/-- The number a byte sequence stands for, most significant byte first (R22). -/
def bigEndian (bytes : List Byte) : Nat := bytes.foldl (fun acc b => acc * 256 + b.toNat) 0

/-- `MemRead(off, n)`, defined when `off + n ≤ len` (R19). -/
def memRead (buf : List Byte) (off n : Nat) : Option Nat :=
  if off + n ≤ buf.length then some (bigEndian ((buf.drop off).take n)) else none

/-- `MemWrite(off, n, v)`: the big-endian n-byte form of v, first byte at `off` (R19, R22). -/
def memWrite (pay : Payload) (off : Nat) : (n v : Nat) → Payload
  | 0, _ => pay
  | n + 1, v => memWrite (pay.setIfInBounds off (BitVec.ofNat 8 (v / 256 ^ n))) (off + 1) n v

/-- `raw16(buf, len)` (41_decode.md R60): the length check, then one big-endian read. `none` is `raise ShortRead`. -/
def raw16 (buf : List Byte) : Option Nat := if buf.length < minRead then none else memRead buf 0 fieldBytes

/-- The SpeedCommand or PwmCommand of R15: the operands after clamping. It exists only inside an encode (90_conflicts.md
C4). -/
def clampedCommand (x : Lanes Int) (lim : Int) : Lanes Int := x.map (fun v => clamp v (-lim) lim)

/-- The encode procedure (40_encode.md R50) with its bound: clamp, convert, write, channel by channel. The payload
it starts from has no influence, since all eight bytes are written (R21). -/
def encodePayload (x : Lanes Int) (lim : Int) : Payload :=
  MotorChannel.all.foldl
    (fun pay k => memWrite pay (channelOffset k) fieldBytes (toU16 ((clampedCommand x lim).get k)))
    (Vector.replicate 8 0#8)

end Sys2Proof.Machine
end

