-- ==== Sys2Proof/Machine/Binary64.lean ====
section
/-! DEFINITION. `f64` (00_scope.md section 5): the IEEE 754 binary64 number nearest a rational, ties to the even
significand. binary64 itself is the spec's decision D6 (41_decode.md R64 b; log entry 10). Only Nat arithmetic. -/

namespace Sys2Proof.Machine

/-- `a / b` rounded to the nearest integer, ties to even. -/
def roundHalfEven (a b : Nat) : Nat :=
  if 2 * (a % b) < b then a / b
  else if b < 2 * (a % b) then a / b + 1
  else a / b + a / b % 2

/-- The power of two that scales `n / d` into [2^52, 2^53), where a binary64 significand lies. The first guess is
within one of it. For 0 < n, 0 < d and a quotient below 2^51. -/
def significandShift (n d : Nat) : Nat :=
  let k := 52 + d.log2 - n.log2
  if 2 ^ 52 ≤ n * 2 ^ k / d then k else k + 1

/-- `f64(n / d)` as a bit pattern: sign 63, exponent 62:52, fraction 51:0 (30_encoding.md R42). A significand that
rounds up to 2^53 carries into the exponent field. For quotients that are zero or between 2^(-1022) and 2^51; R64
uses it for 0 and for 0.1 to 6553.5. -/
def f64 (n d : Nat) : BitVec 64 :=
  if n = 0 then 0#64
  else
    let k := significandShift n d
    BitVec.ofNat 64 ((1023 + 52 - k) * 2 ^ 52 + (roundHalfEven (n * 2 ^ k) d - 2 ^ 52))

/-- The port pattern of a battery reading: `f64(raw / 10)` (R42, R63, R64). -/
def voltsPattern (raw : Nat) : BitVec 64 := f64 raw battDiv

/-- The reading itself, exactly `raw / 10` volts (R63). -/
def batteryReading (raw : Nat) : Rat := (raw : Rat) / (battDiv : Rat)

end Sys2Proof.Machine
end

