-- ==== Sys2Proof/Machine/Flags.lean ====
section
/-! DEFINITION. The block has no flags, condition codes or sticky bits (10_state.md R12). The one condition it reports
is `rsp_err`, a function of the current response alone (30_encoding.md R42; the code is decision D8). -/

namespace Sys2Proof.Machine

/-- `rsp_err` of a response: 1 exactly for ShortRead (R42). A saturated channel is not reported (R12). -/
def errFlag : Response → Bool
  | .payload _ => false
  | .volts _ => false
  | .ticks _ => false
  | .shortRead => true

/-- The response format (R35). -/
def responseFormat : Response → RspFormat
  | .payload _ => .formatP
  | .volts _ => .formatV
  | .ticks _ => .formatT
  | .shortRead => .formatX

end Sys2Proof.Machine
end

