-- ==== Sys2Proof/Machine/Ops.lean ====
section
/-! DEFINITION. The operations every step shares: taking a request from the ports, giving a response on them, and the
one failure. -/

namespace Sys2Proof.Machine

/-- The failure ShortRead, raised in one place (60_exceptions.md R70, R75; 41_decode.md R60). It is delivered in band:
the response of the failing request, with no value, no saved state and no change of control (R75, R77). -/
def orShortRead (raw : Option Nat) (value : Nat → Response) : Response :=
  match raw with
  | none => .shortRead
  | some r => value r

/-- The response ports of a response (R42). A port outside its format is unspecified (R40, log entry 3). -/
def responsePorts (c : PortWidths) (draw : Nat) (r : Response) : RspPorts c :=
  { valid := true
    err := errFlag r
    pay := match r with
      | .payload pay => pay
      | _ => freePayload draw
    volts := match r with
      | .volts raw => voltsPattern raw
      | _ => Config.freeVolts draw
    ticks := match r with
      | .ticks t => BitVec.ofInt c.outW t
      | _ => Config.freeTicks c.outW draw }

/-- What stands on the request ports at this step: the head of the caller's list, or no request (R93, R40). -/
def presented (s : State) : ReqPorts Config.widths :=
  match s.requests with
  | [] => idlePorts Config.widths
  | p :: _ => p

/-- The caller moves on to its next request. -/
def takeRequest (s : State) : State := { s with requests := s.requests.tail }

/-- Give the response to a request: it is on the response ports, and recorded (R13, R42). -/
def respondWith (i : Instr) (r : Response) (s : State) : State :=
  { s with
    rsp := responsePorts Config.widths s.draws r
    history := s.history ++ [{ request := i, response := r }]
    draws := s.draws + 1 }

/-- A step with no request presented: `rsp_valid` is 0 and every other response port is unspecified (R40, D11). -/
def idle (s : State) : State :=
  { s with rsp := quietPorts Config.widths s.draws, draws := s.draws + 1 }

end Sys2Proof.Machine
end

