-- ==== Sys2Proof/Machine/MotorEncoder.lean ====
section
/-! DEFINITION. The encode family (40_encode.md): ENCODE_SPEEDS and ENCODE_PWM. They never fail (00_scope.md R8). -/

namespace Sys2Proof.Machine

/-- The result of ENCODE_SPEEDS (R51). -/
def speedsResponse (x : Lanes Int) : Response := .payload (encodePayload x speedLimit)

/-- The result of ENCODE_PWM (R52). -/
def pwmResponse (x : Lanes Int) : Response := .payload (encodePayload x pwmLimit)

/-- ENCODE_SPEEDS (R51). -/
def execEncodeSpeeds (x : Lanes Int) (s : State) : Host.Outcome State Fault Refusal :=
  .next (respondWith (.encodeSpeeds x) (speedsResponse x) s)

/-- ENCODE_PWM (R52). -/
def execEncodePwm (x : Lanes Int) (s : State) : Host.Outcome State Fault Refusal :=
  .next (respondWith (.encodePwm x) (pwmResponse x) s)

end Sys2Proof.Machine
end

