-- ==== Sys2Proof/Machine/ReadingDecoder.lean ====
section
/-! DEFINITION. The decode family (41_decode.md): DECODE_BATTERY and DECODE_ENCODER. A short buffer is the response
ShortRead and the machine goes on (60_exceptions.md R75, R77; log entry 16). -/

namespace Sys2Proof.Machine

/-- The result of DECODE_BATTERY (R63). -/
def batteryResponse (buf : List Byte) : Response := orShortRead (raw16 buf) Response.volts

/-- The result of DECODE_ENCODER (R65). -/
def encoderResponse (buf : List Byte) : Response := orShortRead (raw16 buf) (fun raw => .ticks (s16 raw))

/-- DECODE_BATTERY (R63). -/
def execDecodeBattery (buf : List Byte) (s : State) : Host.Outcome State Fault Refusal :=
  .next (respondWith (.decodeBattery buf) (batteryResponse buf) s)

/-- DECODE_ENCODER (R65). -/
def execDecodeEncoder (buf : List Byte) (s : State) : Host.Outcome State Fault Refusal :=
  .next (respondWith (.decodeEncoder buf) (encoderResponse buf) s)

end Sys2Proof.Machine
end

