-- ==== Sys2Proof/Machine/Dispatch.lean ====
section
/-! DEFINITION. One arm per operation of spec/opcode_table.json (30_encoding.md R37, R47). -/

namespace Sys2Proof.Machine

def exec (i : Instr) (s : State) : Host.Outcome State Fault Refusal :=
  match i with
  | .encodeSpeeds x => Sys2Proof.Machine.execEncodeSpeeds x s
  | .encodePwm x => Sys2Proof.Machine.execEncodePwm x s
  | .decodeBattery buf => Sys2Proof.Machine.execDecodeBattery buf s
  | .decodeEncoder buf => Sys2Proof.Machine.execDecodeEncoder buf s

end Sys2Proof.Machine
end

