-- ==== Sys2Proof/Machine/Step.lean ====
section
/-! DEFINITION. One step per presented request (92_eei_decisions.md D1, 70_reset_and_hazards.md R92, R93). -/

namespace Sys2Proof.Machine

/-- Sample the request ports, decode, and serve; with no request presented the step is idle (R40). -/
def step (s : State) : Host.Outcome State Fault Refusal :=
  match decode (presented s) with
  | .ok i => exec i (takeRequest s)
  | .error .noRequest => .next (idle (takeRequest s))

/-- The caller presents the request of an opcode-table word next (log entries 1 and 6). -/
def State.withFetchWord (s : State) (_nbits w : Nat) : State :=
  { s with requests := tableRequest Config.widths w :: s.requests }

end Sys2Proof.Machine
end

