-- ==== Sys2Proof/Machine/Program.lean ====
section
/-! DEFINITION. The abstract form of the block (30_encoding.md R47) and programs (70_reset_and_hazards.md R93). -/

namespace Sys2Proof.Machine

/-- `step : Request -> Response` of R47: total, and a function of the one request (00_scope.md R7). -/
def respond : Instr → Response
  | .encodeSpeeds x => speedsResponse x
  | .encodePwm x => pwmResponse x
  | .decodeBattery buf => batteryResponse buf
  | .decodeEncoder buf => encoderResponse buf

/-- A program is a finite list of requests; running it applies `respond` to each in turn (R93, D21). -/
def runProgram (program : List Instr) : List Response := program.map respond

/-- The responses a state has recorded, in the order of their requests (R93). -/
def responses (s : State) : List Response := s.history.map Exchange.response

/-- The pseudo-instruction STOP_SPEEDS (R46). -/
def stopSpeeds : Instr := .encodeSpeeds (Lanes.same 0)

/-- The pseudo-instruction STOP_PWM (R46). -/
def stopPwm : Instr := .encodePwm (Lanes.same 0)

end Sys2Proof.Machine
end

