-- ==== Sys2Proof/Machine/Assembly.lean ====
section
/-! DEFINITION. The textual form of requests and responses (30_encoding.md R45) and the pseudo-instructions of R46.
The document has no assembler: syntax and mnemonics are the spec's decision D13. Text is a list of characters. The
spaces R45 does not fix are log entry 18. -/

namespace Sys2Proof.Machine

/-- The text of a mnemonic or a mark. -/
abbrev Text := List Char

/-! ## Writing -/

/-- A decimal natural number. -/
def natText (n : Nat) : Text := Nat.toDigits 10 n

/-- A decimal integer, with a leading '-' when negative. -/
def intText (v : Int) : Text := if v < 0 then '-' :: natText v.natAbs else natText v.natAbs

/-- The digits of hexadecimal, in capitals as in 95_test_vectors.md. -/
def hexDigits : Text := ['0', '1', '2', '3', '4', '5', '6', '7', '8', '9', 'A', 'B', 'C', 'D', 'E', 'F']

/-- One hexadecimal digit of a number below 16. -/
def hexDigit (n : Nat) : Char := hexDigits.getD n '0'

/-- A byte as two hexadecimal digits. -/
def hexText (b : Byte) : Text := [hexDigit (b.toNat / 16), hexDigit (b.toNat % 16)]

/-- A byte of a read buffer, 0x00 to 0xFF. -/
def byteText (b : Byte) : Text := '0' :: 'x' :: hexText b

/-- Pieces of text with a separator between them. -/
def joinText (sep : Text) : List Text → Text
  | [] => []
  | [t] => t
  | t :: ts => t ++ sep ++ joinText sep ts

/-- Four operands for M1 to M4. -/
def operandsText (x : Lanes Int) : Text := joinText [',', ' '] [intText x.m1, intText x.m2, intText x.m3, intText x.m4]

/-- A buffer, index 0 first; `[]` is the empty buffer. -/
def bufferText (buf : List Byte) : Text := '[' :: (joinText [',', ' '] (buf.map byteText) ++ [']'])

/-- The line of a request (R45). -/
def requestText : Instr → Text
  | .encodeSpeeds x => "ENCODE_SPEEDS ".toList ++ operandsText x
  | .encodePwm x => "ENCODE_PWM ".toList ++ operandsText x
  | .decodeBattery buf => "DECODE_BATTERY ".toList ++ bufferText buf
  | .decodeEncoder buf => "DECODE_ENCODER ".toList ++ bufferText buf

/-- The text of a response (R45): the payload's bytes, the exact quotient with one decimal digit, the ticks, or
ShortRead. R45 puts the binary64 pattern beside the quotient "where it matters" and does not say where that is; it is
never written here (DESIGN CHOICE, log entry 20: safe, the pattern is a function of the quotient, `voltsPattern`). -/
def responseText : Response → Text
  | .payload pay => "-> [".toList ++ joinText [' '] (pay.toList.map hexText) ++ [']']
  | .volts raw => "-> volts ".toList ++ natText (raw / battDiv) ++ '.' :: natText (raw % battDiv)
  | .ticks t => "-> ticks ".toList ++ intText t
  | .shortRead => "-> ShortRead".toList

/-! ## Reading -/

/-- A line up to the comment that `;` starts. -/
def dropComment (line : Text) : Text := line.takeWhile (fun ch => ch ≠ ';')

/-- Text without the spaces at its two ends. -/
def trimText (t : Text) : Text :=
  ((t.dropWhile (fun ch => ch = ' ')).reverse.dropWhile (fun ch => ch = ' ')).reverse

/-- The pieces of a text between the separators. -/
def splitText (sep : Char) : Text → List Text
  | [] => [[]]
  | ch :: rest =>
    if ch = sep then [] :: splitText sep rest
    else match splitText sep rest with
      | [] => [[ch]]
      | t :: ts => (ch :: t) :: ts

/-- A decimal digit's value. -/
def digitValue (ch : Char) : Option Nat :=
  if ch ∈ hexDigits.take 10 then some (hexDigits.idxOf ch) else none

/-- A hexadecimal digit's value. -/
def hexValue (ch : Char) : Option Nat :=
  if ch ∈ hexDigits then some (hexDigits.idxOf ch) else none

/-- The value of decimal digits, most significant first, after the value read so far. -/
def readDigits (acc : Nat) : Text → Option Nat
  | [] => some acc
  | ch :: rest => (digitValue ch).bind (fun d => readDigits (acc * 10 + d) rest)

/-- A decimal number of at least one digit. -/
def readNat (t : Text) : Option Nat := if t = [] then none else readDigits 0 t

/-- A decimal integer with an optional leading '-'. -/
def readInt : Text → Option Int
  | '-' :: rest => (readNat rest).map (fun n => -(n : Int))
  | t => (readNat t).map (fun n => (n : Int))

/-- A byte: `0x` and two hexadecimal digits. -/
def readByte : Text → Option Byte
  | ['0', 'x', h, l] => (hexValue h).bind (fun a => (hexValue l).map (fun b => BitVec.ofNat 8 (a * 16 + b)))
  | _ => none

/-- Four operands separated by commas. -/
def readOperands (t : Text) : Option (Lanes Int) :=
  match (splitText ',' t).map (fun piece => readInt (trimText piece)) with
  | [some a, some b, some c, some d] => some { m1 := a, m2 := b, m3 := c, m4 := d }
  | _ => none

/-- Every piece of a list read, or none. -/
def readAll {α : Type} (read : Text → Option α) : List Text → Option (List α)
  | [] => some []
  | t :: ts => (read t).bind (fun v => (readAll read ts).map (fun vs => v :: vs))

/-- The inside of a buffer's brackets: nothing, or bytes separated by commas. -/
def readBytes (inside : Text) : Option (List Byte) :=
  if trimText inside = [] then some []
  else readAll (fun piece => readByte (trimText piece)) (splitText ',' inside)

/-- A bracketed buffer. -/
def readBufferText (t : Text) : Option (List Byte) :=
  match t with
  | '[' :: rest => if rest.getLast? = some ']' then readBytes rest.dropLast else none
  | _ => none

/-- A line without comment or outer spaces, split at its first space. -/
def splitMnemonic (t : Text) : Text × Text :=
  (t.takeWhile (fun ch => ch ≠ ' '), trimText (t.dropWhile (fun ch => ch ≠ ' ')))

/-- The request a line of text stands for (R45), the two pseudo-instructions among them (R46). -/
def assemble (line : Text) : Option Instr :=
  let parts := splitMnemonic (trimText (dropComment line))
  if parts.1 = "ENCODE_SPEEDS".toList then (readOperands parts.2).map Instr.encodeSpeeds
  else if parts.1 = "ENCODE_PWM".toList then (readOperands parts.2).map Instr.encodePwm
  else if parts.1 = "DECODE_BATTERY".toList then (readBufferText parts.2).map Instr.decodeBattery
  else if parts.1 = "DECODE_ENCODER".toList then (readBufferText parts.2).map Instr.decodeEncoder
  else if parts.1 = "STOP_SPEEDS".toList then (if parts.2 = [] then some stopSpeeds else none)
  else if parts.1 = "STOP_PWM".toList then (if parts.2 = [] then some stopPwm else none)
  else none

end Sys2Proof.Machine
end

