-- ==== Sys2Proof/Machine/RegisterMap.lean ====
section
/-! DEFINITION. The RegisterMap (00_scope.md R6) and the register table of the external board (10_state.md R17). None of
it is state of the block and no operation reads it (R16, R20); it names where the caller's transport writes a payload
or reads a buffer, and Safety.lean states the caller's duties in its terms. -/

namespace Sys2Proof.Machine

/-- The nine named registers (90_conflicts.md C1: one encoder register, M1's). -/
inductive BoardRegister where
  | motorType | deadzone | magneticLines | reductionRatio | wheelDiameter
  | speedControl | pwmControl | batteryVoltage | encoderM1
  deriving DecidableEq, Repr

/-- The access column of R17. -/
inductive Access where
  | writeOnly | readOnly
  deriving DecidableEq, Repr

/-- The access column of R17, the only access rule there is (20_memory.md R28). -/
def BoardRegister.access : BoardRegister → Access
  | .motorType | .deadzone | .magneticLines | .reductionRatio | .wheelDiameter => .writeOnly
  | .speedControl | .pwmControl => .writeOnly
  | .batteryVoltage | .encoderM1 => .readOnly

/-- The payload length of R17 in bytes; `none` where it is "device-specific, not in the document". -/
def BoardRegister.payloadBytes : BoardRegister → Option Nat
  | .motorType | .deadzone | .magneticLines | .reductionRatio | .wheelDiameter => none
  | .speedControl | .pwmControl => some payloadLen
  | .batteryVoltage | .encoderM1 => some fieldBytes

/-- The 8-bit register offset, an open parameter (R6; R27: no relation among them is assumed). -/
def BoardRegister.offset : BoardRegister → BitVec 8
  | .motorType => Config.regMotorType
  | .deadzone => Config.regDeadzone
  | .magneticLines => Config.regMagLines
  | .reductionRatio => Config.regReduction
  | .wheelDiameter => Config.regWheelDia
  | .speedControl => Config.regSpeed
  | .pwmControl => Config.regPwm
  | .batteryVoltage => Config.regBattery
  | .encoderM1 => Config.regEncM1

/-- The offset of a channel's encoder register: REG_ENC_M1, and the three further open parameters of D19. The format of
the registers of M2 to M4 is not in the document and none is assumed (90_conflicts.md C1, 41_decode.md R69). -/
def encoderOffset : MotorChannel → BitVec 8
  | .m1 => BoardRegister.encoderM1.offset
  | .m2 => Config.regEncM2
  | .m3 => Config.regEncM3
  | .m4 => Config.regEncM4

/-- The bound of a command register's fields: its range is [-bound, bound] (the payload column of R17). -/
def BoardRegister.fieldBound : BoardRegister → Option Int
  | .speedControl => some speedLimit
  | .pwmControl => some pwmLimit
  | .motorType | .deadzone | .magneticLines | .reductionRatio | .wheelDiameter => none
  | .batteryVoltage | .encoderM1 => none

/-- The register whose bytes an operation makes or reads (the last column of R17). -/
def targetRegister : Instr → BoardRegister
  | .encodeSpeeds _ => .speedControl
  | .encodePwm _ => .pwmControl
  | .decodeBattery _ => .batteryVoltage
  | .decodeEncoder _ => .encoderM1

end Sys2Proof.Machine
end

