-- ==== Sys2Proof/Safety.lean ====
section
/-! DEFINITION. The terms claims are made in: what a good response and a good state are, what a binary64 pattern is
worth, and what the caller and the transport owe the block (70_reset_and_hazards.md R87 to R91, R95). -/

namespace Sys2Proof.Machine

/-- The domain of a response's value (10_state.md R15, 30_encoding.md R47). A payload has 8 bytes by its type. -/
def Response.InDomain : Response → Prop
  | .payload _ => True
  | .volts raw => raw < 65536
  | .ticks t => -32768 ≤ t ∧ t ≤ 32767
  | .shortRead => True

/-- The response ports show a response: `rsp_valid` is 1, `rsp_err` is the response's, and the port of its format holds
its value (30_encoding.md R40, R42). Nothing is said of the other ports. -/
def RspPorts.Shows {c : PortWidths} (p : RspPorts c) : Response → Prop
  | .payload pay => p.valid = true ∧ p.err = false ∧ p.pay = pay
  | .volts raw => p.valid = true ∧ p.err = false ∧ p.volts = voltsPattern raw
  | .ticks t => p.valid = true ∧ p.err = false ∧ p.ticks = BitVec.ofInt c.outW t
  | .shortRead => p.valid = true ∧ p.err = true

/-- A recorded exchange is right: its response is the one the rules give for its request alone (R7, R29), and in its
domain. -/
def Exchange.Faithful (e : Exchange) : Prop := e.response = respond e.request ∧ e.response.InDomain

/-- The invariant of the machine: every recorded response is the one its own request has, whatever came before it, and
while `rsp_valid` is 1 the response ports show the latest recorded response. -/
structure State.Inv (s : State) : Prop where
  faithful : ∀ e ∈ s.history, e.Faithful
  showing  : s.rsp.valid = true → ∃ e, s.history.getLast? = some e ∧ s.rsp.Shows e.response

/-- The value of a binary64 pattern, in exact arithmetic; `none` for an infinity or a NaN. With exponent field E and
fraction F it is F·2^(-1074) when E is 0 and (2^52 + F)·2^(E - 1075) otherwise, negative when bit 63 is set. -/
def binary64Value (b : BitVec 64) : Option Rat :=
  let e := bitsOf b.toNat 62 52
  let f := bitsOf b.toNat 51 0
  let sign : Rat := if bitsOf b.toNat 63 63 = 1 then -1 else 1
  if e = 2047 then none
  else if e = 0 then some (sign * (f : Rat) * 2 ^ (-1074 : Int))
  else some (sign * ((2 ^ 52 + f : Nat) : Rat) * 2 ^ ((e : Int) - 1075))

/-! ## The caller and the transport (context: 20_memory.md R30, R31; no step of the machine performs these)

The transport is outside the block (00_scope.md R3 a). What follows are predicates on what it is asked to do; log
entry 14. -/

/-- A "bus open/read/write failure" of the transport (60_exceptions.md R72). It is given no fields (91_not_in_source.md
N20) and never reaches the block. -/
inductive TransportError where
  | transportError
  deriving DecidableEq, Repr

/-- A call of the transport with its result, the two signatures of R31: `write(register_addr, data)` returns nothing or a
TransportError; `read(register_addr, length)` returns bytes, fewer or more than asked for among them, or a
TransportError. `register_addr` is any byte, a named register's offset or not (R20, R27). -/
inductive TransportCall where
  | write (addr : Byte) (data : List Byte) (result : Except TransportError Unit)
  | read (addr : Byte) (length : Int) (result : Except TransportError (List Byte))
  deriving DecidableEq, Repr

/-- The byte `register_addr` of a call (R31). -/
def TransportCall.registerAddr : TransportCall → Byte
  | .write addr _ _ => addr
  | .read addr _ _ => addr

/-- The access a call makes (R17). -/
def TransportCall.access : TransportCall → Access
  | .write _ _ _ => .writeOnly
  | .read _ _ _ => .readOnly

/-- The call ended in a TransportError (R31, R72). -/
def TransportCall.Failed : TransportCall → Prop
  | .write _ _ result => result = .error .transportError
  | .read _ _ result => result = .error .transportError

/-- The access column binds the transport (20_memory.md R28). A call is permitted when a named register at its address has
that access, or when no named register is there, of which the column says nothing. The spec leaves open whether offsets
differ and what other offsets do (R27), so both clauses are the model's (DESIGN CHOICE, log entry 22: safe, no step
depends on it). -/
def TransportCall.Permitted (call : TransportCall) : Prop :=
  (∃ reg : BoardRegister, reg.offset = call.registerAddr ∧ reg.access = call.access) ∨
  ∀ reg : BoardRegister, reg.offset ≠ call.registerAddr

/-- R88: the payload of an encode goes to its own register, all eight bytes, in offset order, in one write.
The write may succeed or fail: it comes after the response and does not change it (R72, D16). -/
def PayloadWrite (e : Exchange) (call : TransportCall) : Prop :=
  ∃ pay result, e.response = .payload pay ∧ call = .write (targetRegister e.request).offset pay.toList result

/-- R90: a decode is given exactly the bytes the transport returned for the register it decodes. A read that failed
returned no bytes, so no decode request is made for it (R72, D16). -/
def BufferRead (call : TransportCall) (i : Instr) : Prop :=
  ∃ length got, call = .read (targetRegister i).offset length (.ok got) ∧ (i = .decodeBattery got ∨ i = .decodeEncoder got)

/-- What the bus sees of a transaction. It `completes` when the call that began it returns, with its result or with a
TransportError. R87 and R95 do not say how a failed transaction counts; here it is over when its call has returned, so
that a retry may then begin (DESIGN CHOICE, log entry 21: unsafe if a failed call leaves the bus in a transaction). -/
inductive BusEvent where
  | begins (call : Nat)
  | completes (call : Nat)
  deriving DecidableEq, Repr

/-- R87, R30: one transaction completes in full before the next begins. `busy` is the transaction under way. R30 says
nothing of a trace that ends with a transaction still under way; such a trace is a prefix of a run and does not count as
serialised here (DESIGN CHOICE, log entry 19: safe, no step depends on it). A failed transaction is one whose `completes`
is a TransportError (log entry 21); one that shows no `completes` at all never ends and nothing may begin after it. -/
def serialised (busy : Option Nat) : List BusEvent → Bool
  | [] => busy.isNone
  | .begins n :: rest => busy.isNone && serialised (some n) rest
  | .completes n :: rest => decide (busy = some n) && serialised none rest

end Sys2Proof.Machine
end

