-- ==== Sys2Proof/Certificates/Slice0/Obligations.lean ====
section
/-! DEFINITION. The statements for the provers, from the numbered rules of spec/. Where a clause rests on a decision of
the spec (operation codes D3, port widths D4, D5 and D7, binary64 D6, the error code D8, unspecified ports D9 and D11, the
text form D13, two's complement in the payload D24) its docstring says so. -/

open Sys2Proof Sys2Proof.Machine

/-! ## Reset, fetch and decode -/

/-- 10_state.md R18, 70_reset_and_hazards.md R85 (decisions D10, D11): after reset `rsp_valid` is 0. That no request is
pending and no response recorded is the model's choice (log entries 1 and 2). -/
def Obligations.ResetPresentsNoResponse : Prop :=
  State.reset.rsp.valid = false ∧ State.reset.requests = [] ∧ State.reset.history = []

/-- The machine's invariant (Safety.lean, `State.Inv`) holds at reset. -/
def Obligations.ResetMeetsInvariant : Prop := State.reset.Inv

/-- 30_encoding.md R37 and spec/opcode_table.json (decision D3), and the port forms of 95_test_vectors.md sections 2.1
and 2.3: the words of the four operations, and whole port settings, decode to the requests they stand for. That a table
word presents every operand port zero, so that it decodes to zero operands or the empty buffer, is the model's choice
(log entry 6); the spec gives a word only its select. -/
def Obligations.WrittenOutRequestsDecode : Prop :=
  decodeTableWord 8 0b00 = some (.encodeSpeeds { m1 := 0, m2 := 0, m3 := 0, m4 := 0 }) ∧
  decodeTableWord 8 0b01 = some (.encodePwm { m1 := 0, m2 := 0, m3 := 0, m4 := 0 }) ∧
  decodeTableWord 8 0b10 = some (.decodeBattery []) ∧
  decodeTableWord 8 0b11 = some (.decodeEncoder []) ∧
  decode ({ valid := true, op := 0b00#2,
            ch := { m1 := 0x000003E9#32, m2 := 0xFFFFFC17#32, m3 := 0x000003E8#32, m4 := 0xFFFFFC18#32 },
            len := 0b0000#4, buf := #v[0, 0, 0, 0, 0, 0, 0, 0] } : ReqPorts Config.widths) =
    .ok (.encodeSpeeds { m1 := 1001, m2 := -1001, m3 := 1000, m4 := -1000 }) ∧
  decode ({ valid := true, op := 0b01#2,
            ch := { m1 := 0x00001388#32, m2 := 0xFFFFEC78#32, m3 := 0x000004D2#32, m4 := 0xFFFFFB2E#32 },
            len := 0b1111#4, buf := #v[1, 2, 3, 4, 5, 6, 7, 8] } : ReqPorts Config.widths) =
    .ok (.encodePwm { m1 := 5000, m2 := -5000, m3 := 1234, m4 := -1234 }) ∧
  decode ({ valid := true, op := 0b10#2,
            ch := { m1 := 0x00000007#32, m2 := 0#32, m3 := 0#32, m4 := 0#32 },
            len := 0b0100#4, buf := #v[0x00, 0x7E, 0xAA, 0xBB, 0xCC, 0, 0, 0] } : ReqPorts Config.widths) =
    .ok (.decodeBattery [0x00, 0x7E, 0xAA, 0xBB]) ∧
  decode ({ valid := true, op := 0b11#2,
            ch := { m1 := 0#32, m2 := 0#32, m3 := 0#32, m4 := 0#32 },
            len := 0b0001#4, buf := #v[0x12, 0x34, 0, 0, 0, 0, 0, 0] } : ReqPorts Config.widths) =
    .ok (.decodeEncoder [0x12])

/-- 92_eei_decisions.md D1, 70_reset_and_hazards.md R93: a step serves the request at the head of the caller's list, and
the caller moves on by one. The list is the model's form of the caller (log entry 1). -/
def Obligations.StepRunsThePresentedRequest : Prop :=
  ∀ (s : State) (p : ReqPorts Config.widths) (rest : List (ReqPorts Config.widths)) (i : Instr),
    s.requests = p :: rest → decode p = .ok i → step s = exec i { s with requests := rest }

/-- The next step after `withFetchWord` runs the instruction of that opcode-table word, on the state it was given (log
entries 1 and 6). -/
def Obligations.FetchWordRunsNext : Prop :=
  ∀ (s : State) (nbits w : Nat) (i : Instr),
    decodeTableWord nbits w = some i → step (s.withFetchWord nbits w) = exec i s

/-- 30_encoding.md R40 (decision D11): with no request presented, because the caller's list is over or `req_valid` is 0,
the step goes on with `rsp_valid` 0 and no response is recorded. -/
def Obligations.IdleStepGivesNoResponse : Prop :=
  ∀ s : State, (s.requests = [] ∨ ∃ p rest, s.requests = p :: rest ∧ p.valid = false) →
    ∃ t : State, step s = .next t ∧ t.rsp.valid = false ∧ t.history = s.history ∧ t.requests = s.requests.tail

/-! ## Encoding of requests -/

/-- 30_encoding.md R36, R37, R41 (decisions D2 to D5): for every legal choice of the port widths, a request whose operands
the ports carry is read back whole. -/
def Obligations.DecodeOfEncodeIsIdentity : Prop :=
  ∀ (c : PortWidths) (i : Instr), c.Legal → i.wellFormed c = true → decode (encode c i) = .ok i

/-- The other direction (R37, R39, R41): what decodes is well formed, and encoding it gives back the select and every
field the operation reads; a length above BUF_MAX comes back as BUF_MAX (log entry 7). -/
def Obligations.EncodeOfDecodeKeepsReadFields : Prop :=
  ∀ (c : PortWidths) (p : ReqPorts c) (i : Instr), c.Legal → decode p = .ok i →
    i.wellFormed c = true ∧ (encode c i).valid = p.valid ∧ (encode c i).op = p.op ∧
    (i.format = .formatE → (encode c i).ch = p.ch) ∧
    (i.format = .formatD → (encode c i).len.toNat = min p.len.toNat c.bufMax ∧
      ∀ j : Nat, j < min p.len.toNat c.bufMax → (encode c i).buf[j]? = p.buf[j]?)

/-- 30_encoding.md R41 (decisions D4, D5): a buffer of any length, longer than the lanes or than the length port can say,
can be presented on legal ports without changing the response. -/
def Obligations.AnyBufferCanBePresented : Prop :=
  ∀ (c : PortWidths) (i : Instr), c.Legal → operandsFit c.inW i.channels = true →
    ∃ j : Instr, decode (encode c i) = .ok j ∧ j.opcode = i.opcode ∧ respond j = respond i

/-- 30_encoding.md R39 (decision D14): two requests with the same select that agree on the fields their operation reads
have the same response: an encode reads the channel lanes; a decode reads whether `req_len` is below 2 and, when it is
not, lanes 0 and 1. -/
def Obligations.IgnoredFieldsDoNotMatter : Prop :=
  ∀ (c : PortWidths) (p q : ReqPorts c), c.Legal → p.valid = true → q.valid = true → p.op = q.op →
    (p.op.getLsbD 1 = false → p.ch = q.ch) →
    (p.op.getLsbD 1 = true →
      (p.len.toNat < 2 ↔ q.len.toNat < 2) ∧
      (2 ≤ p.len.toNat → p.buf[0]? = q.buf[0]? ∧ p.buf[1]? = q.buf[1]?)) →
    ∃ i j : Instr, decode p = .ok i ∧ decode q = .ok j ∧ respond i = respond j

/-- 30_encoding.md R45, R46 (decision D13; the spaces are log entry 18): the assembler reads back the text of every
request, and the lines `STOP_SPEEDS` and `STOP_PWM` are the requests of their expansions, `ENCODE_SPEEDS 0, 0, 0, 0` and
`ENCODE_PWM 0, 0, 0, 0`. -/
def Obligations.AssembledTextIsTheRequest : Prop :=
  (∀ i : Instr, assemble (requestText i) = some i) ∧
  assemble "STOP_SPEEDS".toList = some (.encodeSpeeds { m1 := 0, m2 := 0, m3 := 0, m4 := 0 }) ∧
  assemble "STOP_SPEEDS".toList = assemble "ENCODE_SPEEDS 0, 0, 0, 0".toList ∧
  assemble "STOP_PWM".toList = some (.encodePwm { m1 := 0, m2 := 0, m3 := 0, m4 := 0 }) ∧
  assemble "STOP_PWM".toList = assemble "ENCODE_PWM 0, 0, 0, 0".toList

/-! ## The encode family -/

/-- 40_encode.md R51. `req_op` 0 with any channel lanes, length and buffer is ENCODE_SPEEDS of the signed lanes; on any
four integers it completes, with `rsp_err` 0 and nothing else touched, and its payload holds for each channel, at offset
ordinal x 2, the high and the low byte of the clamped value. (The select is decision D3, `rsp_err` D8, two's complement
D24.) -/
def Obligations.EncodeSpeedsWritesClampedFields : Prop :=
  (∀ (c : PortWidths) (p : ReqPorts c), p.valid = true → p.op = 0#2 →
    decode p = .ok (.encodeSpeeds (p.ch.map BitVec.toInt))) ∧
  ∀ (x : Lanes Int) (s : State), ∃ (t : State) (pay : Payload),
    exec (.encodeSpeeds x) s = .next t ∧ t.requests = s.requests ∧
    t.history = s.history ++ [{ request := .encodeSpeeds x, response := .payload pay }] ∧
    t.rsp.valid = true ∧ t.rsp.err = false ∧ t.rsp.pay = pay ∧
    ∀ k : MotorChannel,
      pay.toList[2 * channelOrdinal k]? = some (BitVec.ofNat 8 (toU16 (clamp (x.get k) (-1000) 1000) / 256)) ∧
      pay.toList[2 * channelOrdinal k + 1]? = some (BitVec.ofNat 8 (toU16 (clamp (x.get k) (-1000) 1000) % 256))

/-- 40_encode.md R52: the same for ENCODE_PWM, `req_op` 1, bound 3600. -/
def Obligations.EncodePwmWritesClampedFields : Prop :=
  (∀ (c : PortWidths) (p : ReqPorts c), p.valid = true → p.op = 1#2 →
    decode p = .ok (.encodePwm (p.ch.map BitVec.toInt))) ∧
  ∀ (x : Lanes Int) (s : State), ∃ (t : State) (pay : Payload),
    exec (.encodePwm x) s = .next t ∧ t.requests = s.requests ∧
    t.history = s.history ++ [{ request := .encodePwm x, response := .payload pay }] ∧
    t.rsp.valid = true ∧ t.rsp.err = false ∧ t.rsp.pay = pay ∧
    ∀ k : MotorChannel,
      pay.toList[2 * channelOrdinal k]? = some (BitVec.ofNat 8 (toU16 (clamp (x.get k) (-3600) 3600) / 256)) ∧
      pay.toList[2 * channelOrdinal k + 1]? = some (BitVec.ofNat 8 (toU16 (clamp (x.get k) (-3600) 3600) % 256))

/-- 40_encode.md R53: for both operations the payload is four copies of one scalar function of a single operand and the
bound, side by side in channel order. -/
def Obligations.PayloadIsFourIndependentFields : Prop :=
  ∃ field : Int → Int → List Byte,
    (∀ v lim, field v lim = [BitVec.ofNat 8 (toU16 (clamp v (-lim) lim) / 256),
                             BitVec.ofNat 8 (toU16 (clamp v (-lim) lim) % 256)]) ∧
    ∀ (x : Lanes Int) (s : State), ∃ t u : State,
      exec (.encodeSpeeds x) s = .next t ∧
      t.rsp.pay.toList = field x.m1 1000 ++ field x.m2 1000 ++ field x.m3 1000 ++ field x.m4 1000 ∧
      exec (.encodePwm x) s = .next u ∧
      u.rsp.pay.toList = field x.m1 3600 ++ field x.m2 3600 ++ field x.m3 3600 ++ field x.m4 3600

/-- 40_encode.md R55 (clause d is the spec's own derivation): a channel's field, read as a big-endian signed 16-bit number,
is the clamped operand; DECODE_ENCODER of its two bytes, whatever follows them, is that many ticks; and encoding the
decoded values again gives the same payload. -/
def Obligations.EncodeThenDecodeReturnsClampedValue : Prop :=
  ∀ (x : Lanes Int) (s : State), ∀ q ∈ [(Instr.encodeSpeeds, (1000 : Int)), (Instr.encodePwm, 3600)],
    ∃ t : State, exec (q.1 x) s = .next t ∧
      (∀ k : MotorChannel, ∃ b0 b1 : Byte,
        t.rsp.pay.toList[2 * channelOrdinal k]? = some b0 ∧ t.rsp.pay.toList[2 * channelOrdinal k + 1]? = some b1 ∧
        s16 (b0.toNat * 256 + b1.toNat) = clamp (x.get k) (-q.2) q.2 ∧
        ∀ rest : List Byte, respond (.decodeEncoder (b0 :: b1 :: rest)) = .ticks (clamp (x.get k) (-q.2) q.2)) ∧
      ∃ t' : State, exec (q.1 (x.map (fun v => clamp v (-q.2) q.2))) s = .next t' ∧ t'.rsp.pay = t.rsp.pay

/-- 40_encode.md R54 c and e, the spec's derivation: the field a channel is sent is, among all numbers of the range, the
one nearest the whole operand, however large; and bit 15 of the field is its sign. -/
def Obligations.EncodedFieldIsNearestInRange : Prop :=
  ∀ (x : Lanes Int) (s : State), ∀ q ∈ [(Instr.encodeSpeeds, (1000 : Int)), (Instr.encodePwm, 3600)],
    ∃ t : State, exec (q.1 x) s = .next t ∧ ∀ k : MotorChannel, ∃ u : Nat,
      memRead t.rsp.pay.toList (2 * channelOrdinal k) 2 = some u ∧
      -q.2 ≤ s16 u ∧ s16 u ≤ q.2 ∧
      (∀ y : Int, -q.2 ≤ y → y ≤ q.2 → |s16 u - x.get k| ≤ |y - x.get k|) ∧
      (bitsOf u 15 15 = 1 ↔ x.get k < 0)

/-- 40_encode.md R56, the spec's derivation: the values a 16-bit field can have. -/
def Obligations.EncodedFieldValues : Prop :=
  ∀ (x : Lanes Int) (s : State), ∃ t t' : State, exec (.encodeSpeeds x) s = .next t ∧ exec (.encodePwm x) s = .next t' ∧
    ∀ k : MotorChannel, ∃ u u' : Nat,
      memRead t.rsp.pay.toList (2 * channelOrdinal k) 2 = some u ∧
      (u ≤ 0x03E8 ∨ 0xFC18 ≤ u ∧ u ≤ 0xFFFF) ∧
      memRead t'.rsp.pay.toList (2 * channelOrdinal k) 2 = some u' ∧
      (u' ≤ 0x0E10 ∨ 0xF1F0 ≤ u' ∧ u' ≤ 0xFFFF)

/-- 30_encoding.md R46, 70_reset_and_hazards.md R89 (the names are decision D13): the two stop requests give eight zero
bytes, and no request with an operand other than zero does. -/
def Obligations.OnlyAnAllZeroCommandStops : Prop :=
  (∀ s : State, ∃ t u : State,
    exec stopSpeeds s = .next t ∧ t.rsp.pay = #v[0, 0, 0, 0, 0, 0, 0, 0] ∧
    exec stopPwm s = .next u ∧ u.rsp.pay = #v[0, 0, 0, 0, 0, 0, 0, 0]) ∧
  ∀ (x : Lanes Int) (s : State), ∃ t u : State,
    exec (.encodeSpeeds x) s = .next t ∧ exec (.encodePwm x) s = .next u ∧
    (t.rsp.pay = #v[0, 0, 0, 0, 0, 0, 0, 0] → .encodeSpeeds x = stopSpeeds) ∧
    (u.rsp.pay = #v[0, 0, 0, 0, 0, 0, 0, 0] → .encodePwm x = stopPwm)

/-! ## The decode family -/

/-- 41_decode.md R60, R63, R64 (binary64 is decision D6, the select D3, `rsp_err` D8): `req_op` 2 with any channel lanes
is DECODE_BATTERY; on any buffer it completes. A short buffer gives ShortRead and no value; otherwise the response is
the unsigned big-endian first two bytes, a reading of a tenth of that number of volts, on the port as `f64`. -/
def Obligations.DecodeBatteryReadsUnsignedTenths : Prop :=
  (∀ (c : PortWidths) (p : ReqPorts c), p.valid = true → p.op = 2#2 →
    decode p = .ok (.decodeBattery (p.buf.toList.take p.len.toNat))) ∧
  ∀ (buf : List Byte) (s : State), ∃ (t : State) (r : Response),
    exec (.decodeBattery buf) s = .next t ∧ t.requests = s.requests ∧
    t.history = s.history ++ [{ request := .decodeBattery buf, response := r }] ∧ t.rsp.valid = true ∧
    (buf.length < 2 → r = .shortRead ∧ t.rsp.err = true) ∧
    (∀ (b0 b1 : Byte) (rest : List Byte), buf = b0 :: b1 :: rest →
      r = .volts (b0.toNat * 256 + b1.toNat) ∧ t.rsp.err = false ∧
      t.rsp.volts = f64 (b0.toNat * 256 + b1.toNat) 10 ∧
      batteryReading (b0.toNat * 256 + b1.toNat) * 10 = (b0.toNat : Rat) * 256 + b1.toNat)

/-- 41_decode.md R65: `req_op` 3 with any channel lanes is DECODE_ENCODER; on any buffer it completes. A short buffer gives
ShortRead and no value; otherwise raw is the unsigned big-endian first two bytes and the response is raw, less 65536
when bit 15 of raw is set, on `rsp_ticks` with raw in bits 15 to 0 and bit 15 of raw in every bit above; the same at
every legal width OUT_W of the port. (The select is decision D3, `rsp_err` D8, OUT_W = 32 in State D7.) -/
def Obligations.DecodeEncoderRecoversSign : Prop :=
  (∀ (c : PortWidths) (p : ReqPorts c), p.valid = true → p.op = 3#2 →
    decode p = .ok (.decodeEncoder (p.buf.toList.take p.len.toNat))) ∧
  ∀ (buf : List Byte) (s : State), ∃ (t : State) (r : Response),
    exec (.decodeEncoder buf) s = .next t ∧ t.requests = s.requests ∧
    t.history = s.history ++ [{ request := .decodeEncoder buf, response := r }] ∧ t.rsp.valid = true ∧
    (buf.length < 2 → r = .shortRead ∧ t.rsp.err = true) ∧
    (∀ (b0 b1 : Byte) (rest : List Byte), buf = b0 :: b1 :: rest → ∃ raw : Nat,
      raw = b0.toNat * 256 + b1.toNat ∧
      r = .ticks (if bitsOf raw 15 15 = 1 then (raw : Int) - 65536 else raw) ∧ t.rsp.err = false ∧
      t.rsp.ticks.toNat % 65536 = raw ∧
      (∀ n : Nat, 16 ≤ n → n < 32 → t.rsp.ticks.getLsbD n = decide (bitsOf raw 15 15 = 1)) ∧
      ∀ (c : PortWidths) (draw : Nat), 16 ≤ c.outW →
        (responsePorts c draw r).ticks = (b0 ++ b1).signExtend c.outW)

/-- 41_decode.md R61: both decodes fail with ShortRead exactly when the buffer has fewer than two bytes, whatever the
bytes are; a failing one shows no value, a succeeding one no failure. -/
def Obligations.ShortReadExactlyWhenUnderTwoBytes : Prop :=
  ∀ (buf : List Byte) (s : State), ∀ f ∈ [Instr.decodeBattery, Instr.decodeEncoder],
    ∃ (t : State) (r : Response), exec (f buf) s = .next t ∧
      t.history = s.history ++ [{ request := f buf, response := r }] ∧
      (r = .shortRead ↔ buf.length < 2) ∧ (t.rsp.err = true ↔ buf.length < 2) ∧
      (2 ≤ buf.length → (∃ raw, r = .volts raw) ∨ ∃ v, r = .ticks v)

/-- 41_decode.md R62: bytes after the first two change nothing, on any response port that has a value. -/
def Obligations.TrailingBytesAreIgnored : Prop :=
  ∀ (b0 b1 : Byte) (rest : List Byte) (s : State), ∀ f ∈ [Instr.decodeBattery, Instr.decodeEncoder],
    ∃ (t u : State) (r : Response), exec (f [b0, b1]) s = .next t ∧ exec (f ([b0, b1] ++ rest)) s = .next u ∧
      t.history = s.history ++ [{ request := f [b0, b1], response := r }] ∧
      u.history = s.history ++ [{ request := f ([b0, b1] ++ rest), response := r }] ∧
      t.rsp.Shows r ∧ u.rsp.Shows r

/-- 41_decode.md R60: both decodes begin with the length check and then the big-endian read of bytes 0 and 1: the raw
value is between 0 and 65535, the first byte is its bits 15 to 8 and the second its bits 7 to 0. -/
def Obligations.BothDecodesShareOneFrontEnd : Prop :=
  ∀ buf : List Byte,
    (buf.length < 2 → respond (.decodeBattery buf) = .shortRead ∧ respond (.decodeEncoder buf) = .shortRead) ∧
    (2 ≤ buf.length → ∃ raw : Nat, raw ≤ 65535 ∧ memRead buf 0 2 = some raw ∧
      buf[0]? = some (BitVec.ofNat 8 (bitsOf raw 15 8)) ∧ buf[1]? = some (BitVec.ofNat 8 (bitsOf raw 7 0)) ∧
      respond (.decodeBattery buf) = .volts raw ∧ respond (.decodeEncoder buf) = .ticks (s16 raw))

/-- 41_decode.md R67 c and d, the spec's derivation: on one buffer the two decodes fail together; below 32768 the ticks are
the raw value, from 32768 on the ticks are negative and the voltage is not. -/
def Obligations.TwoDecodesOfOneBuffer : Prop :=
  ∀ buf : List Byte,
    (respond (.decodeBattery buf) = .shortRead ↔ respond (.decodeEncoder buf) = .shortRead) ∧
    ∀ (raw : Nat) (v : Int), respond (.decodeBattery buf) = .volts raw → respond (.decodeEncoder buf) = .ticks v →
      (raw < 32768 → v = raw ∧ batteryReading raw = (v : Rat) / 10) ∧
      (32768 ≤ raw → v < 0 ∧ 0 ≤ batteryReading raw)

/-- 41_decode.md R64 c, the spec's derivation (binary64 is decision D6): the volts pattern has a clear sign and is no
infinity, NaN or subnormal; it is +0 exactly for raw 0; and it is exact exactly when raw is a multiple of 5. -/
def Obligations.VoltsPatternClass : Prop :=
  ∀ (b0 b1 : Byte) (rest : List Byte) (s : State), ∃ (t : State) (v : Rat),
    exec (.decodeBattery (b0 :: b1 :: rest)) s = .next t ∧ binary64Value t.rsp.volts = some v ∧
    bitsOf t.rsp.volts.toNat 63 63 = 0 ∧ bitsOf t.rsp.volts.toNat 62 52 ≠ 2047 ∧
    (bitsOf t.rsp.volts.toNat 62 52 = 0 → t.rsp.volts = 0#64) ∧
    (t.rsp.volts = 0#64 ↔ b0.toNat * 256 + b1.toNat = 0) ∧
    (v = batteryReading (b0.toNat * 256 + b1.toNat) ↔ 5 ∣ b0.toNat * 256 + b1.toNat)

/-- 41_decode.md R64 b, 00_scope.md R19 `f64` (decision D6): the number on `rsp_volts` is nearer raw/10 than every other
binary64 number (no raw/10 lies midway between two). -/
def Obligations.VoltsPatternIsNearest : Prop :=
  ∀ (b0 b1 : Byte) (rest : List Byte) (s : State), ∃ (t : State) (v : Rat),
    exec (.decodeBattery (b0 :: b1 :: rest)) s = .next t ∧ binary64Value t.rsp.volts = some v ∧
    ∀ (b : BitVec 64) (w : Rat), binary64Value b = some w → w ≠ v →
      |v - batteryReading (b0.toNat * 256 + b1.toNat)| < |w - batteryReading (b0.toNat * 256 + b1.toNat)|

/-! ## The whole machine -/

/-- 20_memory.md R22: every 16-bit quantity is big-endian. `MemWrite` puts bits 15 to 8 at the lower offset and bits 7 to
0 at the next, and touches no other byte; `MemRead` combines them again; the four payload fields of both encodes and
the raw value of both decodes are read and written so. -/
def Obligations.SixteenBitQuantitiesAreBigEndian : Prop :=
  (∀ (pay : Payload) (off u : Nat), off + 2 ≤ 8 → u < 65536 →
    (memWrite pay off 2 u).toList[off]? = some (BitVec.ofNat 8 (u / 256)) ∧
    (memWrite pay off 2 u).toList[off + 1]? = some (BitVec.ofNat 8 (u % 256)) ∧
    memRead (memWrite pay off 2 u).toList off 2 = some u ∧
    ∀ j : Nat, j ≠ off → j ≠ off + 1 → (memWrite pay off 2 u).toList[j]? = pay.toList[j]?) ∧
  (∀ (b0 b1 : Byte) (pre rest : List Byte),
    memRead (pre ++ b0 :: b1 :: rest) pre.length 2 = some (b0.toNat * 256 + b1.toNat)) ∧
  (∀ (x : Lanes Int) (s : State), ∃ t u : State, exec (.encodeSpeeds x) s = .next t ∧ exec (.encodePwm x) s = .next u ∧
    ∀ k : MotorChannel,
      memRead t.rsp.pay.toList (2 * channelOrdinal k) 2 = some (toU16 (clamp (x.get k) (-1000) 1000)) ∧
      memRead u.rsp.pay.toList (2 * channelOrdinal k) 2 = some (toU16 (clamp (x.get k) (-3600) 3600))) ∧
  (∀ (b0 b1 : Byte) (rest : List Byte),
    respond (.decodeBattery (b0 :: b1 :: rest)) = .volts (b0.toNat * 256 + b1.toNat) ∧
    respond (.decodeEncoder (b0 :: b1 :: rest)) = .ticks (s16 (b0.toNat * 256 + b1.toNat)))

/-- 00_scope.md R8: the asymmetry of the contract. On every state an encode gives a payload, never the failure, and
saturates; a decode gives the failure, with no value, exactly on a short buffer, and otherwise a value from which the
two bytes can be had back, so that nothing is saturated, defaulted or coerced. -/
def Obligations.EncodesSaturateAndDecodesFail : Prop :=
  (∀ (x : Lanes Int) (s : State), ∃ t u : State, exec (.encodeSpeeds x) s = .next t ∧ exec (.encodePwm x) s = .next u ∧
    t.rsp.err = false ∧ u.rsp.err = false ∧
    ∃ pay pay' : Payload, t.history = s.history ++ [{ request := .encodeSpeeds x, response := .payload pay }] ∧
      u.history = s.history ++ [{ request := .encodePwm x, response := .payload pay' }] ∧
      ∀ k : MotorChannel, ∃ v v' : Nat,
        memRead pay.toList (2 * channelOrdinal k) 2 = some v ∧ s16 v = max (-1000) (min 1000 (x.get k)) ∧
        memRead pay'.toList (2 * channelOrdinal k) 2 = some v' ∧ s16 v' = max (-3600) (min 3600 (x.get k))) ∧
  ∀ (buf : List Byte) (s : State), ∀ f ∈ [Instr.decodeBattery, Instr.decodeEncoder],
    ∃ (t : State) (r : Response), exec (f buf) s = .next t ∧
      t.history = s.history ++ [{ request := f buf, response := r }] ∧
      (buf.length < 2 → r = .shortRead ∧ t.rsp.err = true) ∧
      (2 ≤ buf.length → r ≠ .shortRead ∧ t.rsp.err = false ∧
        ∀ buf' : List Byte, respond (f buf') = r → buf'.take 2 = buf.take 2)

/-- 00_scope.md R7: the response depends on the request alone. Served in any two states whatever, one request gives one
and the same response, on the ports and in the record. -/
def Obligations.ResponseDependsOnTheRequestAlone : Prop :=
  ∀ i : Instr, ∃ r : Response, ∀ s : State, ∃ t : State,
    exec i s = .next t ∧ t.rsp.Shows r ∧ t.history = s.history ++ [{ request := i, response := r }]

/-- What the four operations leave alone (10_state.md R10 to R14, R16; 20_memory.md R26): each goes on in a next state
with the caller's remaining requests as they were and every earlier exchange as it was, and adds exactly one exchange,
its own. There are no registers, flags, special registers or memory besides (10_state.md R18). -/
def Obligations.OperationsChangeOnlyTheirResponse : Prop :=
  ∀ (i : Instr) (s : State), ∃ (t : State) (r : Response), exec i s = .next t ∧
    t.requests = s.requests ∧ t.history = s.history ++ [{ request := i, response := r }] ∧
    t.history.take s.history.length = s.history ∧ t.history.length = s.history.length + 1

/-- 30_encoding.md R43, 60_exceptions.md R71 (no illegal request, no failure that stops the block), 70 R89, R92: from every
state the machine goes on, and a step records a response exactly when a request is presented, one and for that request:
no payload without a request, no request without a response. -/
def Obligations.OneResponseForEachRequest : Prop :=
  ∀ s : State, ∃ t : State, step s = .next t ∧ t.requests = s.requests.tail ∧
    ((t.history = s.history ∧ t.rsp.valid = false ∧ ∀ p rest, s.requests = p :: rest → p.valid = false) ∨
     ∃ p rest i r, s.requests = p :: rest ∧ p.valid = true ∧ decode p = .ok i ∧
       t.history = s.history ++ [{ request := i, response := r }] ∧ t.rsp.Shows r)

/-- Every step keeps the invariant, from every state that has it: each recorded response is the one its own request has
by the rules, in the domain of 10_state.md R15, and the ports show the latest (00_scope.md R7; 30_encoding.md R42). -/
def Obligations.StepKeepsInvariant : Prop :=
  ∀ s t : State, s.Inv → step s = .next t → t.Inv

/-- 20_memory.md R29: any two operations commute. Two callers' lists that hold the same requests in different orders,
served from any two states, give each request the response its rule gives for it alone: the exchanges recorded are those
of the presented requests, one for each and in their order, so the two records are the same up to order. -/
def Obligations.RequestsCommute : Prop :=
  ∀ (ps qs : List (ReqPorts Config.widths)) (s u : State), ps.Perm qs → (∀ p ∈ ps, p.valid = true) →
    s.requests = ps → u.requests = qs →
    ∃ (t v : State) (es fs : List Exchange),
      Sys2Proof.core.run ps.length s = .next t ∧ Sys2Proof.core.run qs.length u = .next v ∧
      t.history = s.history ++ es ∧ v.history = u.history ++ fs ∧ es.Perm fs ∧
      es.map (fun e => Except.ok e.request) = ps.map decode ∧ fs.map (fun e => Except.ok e.request) = qs.map decode ∧
      (∀ e ∈ es, e.response = respond e.request) ∧ ∀ e ∈ fs, e.response = respond e.request

/-- 70_reset_and_hazards.md R93, the spec's derivation (decision D21): running a program, one step per request, records
the responses of its requests in order and ends with no request left; so the responses of a concatenation are the
concatenation of the responses. -/
def Obligations.ProgramRunGivesItsResponses : Prop :=
  ∀ (prog more : List Instr) (s : State), (∀ i ∈ prog ++ more, i.wellFormed Config.widths = true) →
    s.requests = (prog ++ more).map (encode Config.widths) →
    ∃ t v : State, Sys2Proof.core.run prog.length s = .next t ∧ Sys2Proof.core.run more.length t = .next v ∧
      responses t = responses s ++ runProgram prog ∧ responses v = responses s ++ runProgram (prog ++ more) ∧
      v.requests = []

/-- 70_reset_and_hazards.md R88, 10_state.md R17 (the caller's duty is log entry 14): a caller that writes an encode's
payload as R88 asks writes a writable register of the board, its full length, with every field in the register's range;
and by 60_exceptions.md R72 the write is of that same payload whether it succeeds or fails. What `Permitted` says of
addresses that the table leaves open is the model's choice (log entry 22). -/
def Obligations.ContractedWriteFitsItsRegister : Prop :=
  ∀ (i : Instr) (s : State), ∃ t : State, exec i s = .next t ∧
    ∀ (e : Exchange) (call : TransportCall), t.history.getLast? = some e → PayloadWrite e call →
      call.Permitted ∧ ∃ (reg : BoardRegister) (data : List Byte) (result : Except TransportError Unit)
          (bound : Int),
        reg = targetRegister i ∧ reg.access = .writeOnly ∧ call = .write reg.offset data result ∧
        (∀ other, PayloadWrite e (.write reg.offset data other)) ∧
        reg.payloadBytes = some data.length ∧ reg.fieldBound = some bound ∧
        ∀ k : MotorChannel, ∃ u : Nat, memRead data (channelOffset k) 2 = some u ∧ -bound ≤ s16 u ∧ s16 u ≤ bound

/-- 30_encoding.md R35, R37, R40 (decisions D2, D3, D8): the response format of each operation: P for the encodes; V, or X
on a short buffer, for DECODE_BATTERY; T, or X, for DECODE_ENCODER; and `rsp_err` is 1 exactly in format X. -/
def Obligations.ResponseFormatOfEachOperation : Prop :=
  ∀ (x : Lanes Int) (buf : List Byte) (s : State),
    ∀ q ∈ [(Instr.encodeSpeeds x, RspFormat.formatP), (Instr.encodePwm x, RspFormat.formatP),
           (Instr.decodeBattery buf, if buf.length < 2 then RspFormat.formatX else RspFormat.formatV),
           (Instr.decodeEncoder buf, if buf.length < 2 then RspFormat.formatX else RspFormat.formatT)],
      ∃ (t : State) (r : Response), exec q.1 s = .next t ∧
        t.history = s.history ++ [{ request := q.1, response := r }] ∧ responseFormat r = q.2 ∧
        t.rsp.valid = true ∧ (t.rsp.err = true ↔ q.2 = .formatX)

/-- 20_memory.md R28, 60_exceptions.md R72, 70_reset_and_hazards.md R90 (the caller's duty is log entry 14): a caller that
decodes as R90 asks has read a readable register successfully, and the response is a reading or ShortRead, the second
exactly when the transport returned fewer than two bytes. What `Permitted` says of addresses that the table leaves open
is the model's choice (log entry 22). -/
def Obligations.ContractedReadIsDecoded : Prop :=
  ∀ (call : TransportCall) (i : Instr) (s : State), BufferRead call i →
    call.Permitted ∧ ¬ call.Failed ∧
    ∃ (t : State) (reg : BoardRegister) (length : Int) (got : List Byte) (r : Response),
      reg = targetRegister i ∧ reg.access = .readOnly ∧ call = .read reg.offset length (.ok got) ∧ exec i s = .next t ∧
      t.history = s.history ++ [{ request := i, response := r }] ∧ (∀ pay, r ≠ .payload pay) ∧
      (r = .shortRead ↔ got.length < 2)

/-- 20_memory.md R30, 70_reset_and_hazards.md R87 (the caller's duty is log entry 14): the serialised bus traces are those
in which every transaction completes directly after it begins, so two never overlap. That a trace ending with a
transaction still under way is not counted, and that a failed transaction completes when its call returns, are the
model's choices (log entries 19 and 21). -/
def Obligations.SerialisedTracesHaveNoOverlap : Prop :=
  ∀ trace : List BusEvent,
    serialised none trace = true ↔
      ∃ calls : List Nat, trace = calls.flatMap (fun n => [BusEvent.begins n, BusEvent.completes n])
end

