-- ==== Sys2Proof/Laws/Binary64.lean ====
section
/-! SUPPORT. The rounding and the scaling of `f64`, said once. -/

namespace Sys2Proof.Machine

/-- Rounding is off by at most a half. -/
theorem roundHalfEven_error (a b : Nat) (hb : 0 < b) :
    2 * (b * roundHalfEven a b) ≤ 2 * a + b ∧ 2 * a ≤ 2 * (b * roundHalfEven a b) + b := by
  have h := Nat.div_add_mod a b
  have hm := Nat.mod_lt a hb
  unfold roundHalfEven
  split
  · omega
  · split
    · rw [Nat.mul_add]; omega
    · rcases Nat.mod_two_eq_zero_or_one (a / b) with h2 | h2 <;> rw [h2, Nat.mul_add] <;> omega

/-- An exact quotient is not changed. -/
theorem roundHalfEven_of_dvd {a b : Nat} (hb : 0 < b) (h : b ∣ a) : roundHalfEven a b = a / b := by
  have : a % b = 0 := Nat.mod_eq_zero_of_dvd h
  simp [roundHalfEven, this, hb]

end Sys2Proof.Machine
end

