-- ==== Sys2Proof/Laws/Decode.lean ====
section
/-! SUPPORT. The ports carry what fits them: operand, length and buffer, each said once. -/

namespace Sys2Proof

/-- A presented request always decodes (30_encoding.md R43). -/
theorem decode_of_valid {c : PortWidths} {p : ReqPorts c} (h : p.valid = true) :
    decode p = .ok (selectOperation p.op (channelOperands p) (readBuffer p)) := by
  simp [decode, h]

theorem decode_of_not_valid {c : PortWidths} {p : ReqPorts c} (h : p.valid = false) :
    decode p = .error .noRequest := by
  simp [decode, h]

/-- A decoded instruction comes from a presented request. -/
theorem decode_eq_ok {c : PortWidths} {p : ReqPorts c} {i : Instr} (h : decode p = .ok i) :
    p.valid = true ∧ i = selectOperation p.op (channelOperands p) (readBuffer p) := by
  unfold decode at h
  split at h
  · exact ⟨‹_›, by cases h; rfl⟩
  · cases h

/-- A signed port gives back an integer that fits it (R41). -/
theorem toInt_ofInt_of_fits {w : Nat} {v : Int} (h : fitsSigned w v = true) : (BitVec.ofInt w v).toInt = v := by
  simp only [fitsSigned, Bool.and_eq_true, decide_eq_true_eq] at h
  rw [BitVec.toInt_ofInt]
  refine Int.bmod_eq_of_le_mul_two ?_ ?_ <;> push_cast <;> omega

/-- The signed value of a port fits the port. -/
theorem fits_toInt {w : Nat} (u : BitVec w) : fitsSigned w u.toInt = true := by
  have h := BitVec.two_mul_toInt_lt (x := u)
  have h' := BitVec.le_two_mul_toInt (x := u)
  simp only [fitsSigned, Bool.and_eq_true, decide_eq_true_eq]
  exact ⟨h', h⟩

/-- The length port carries any length below its range, and its largest value above. -/
theorem lengthPort_toNat (w len : Nat) : (lengthPort w len).toNat = min len (2 ^ w - 1) := by
  have : 0 < 2 ^ w := Nat.two_pow_pos w
  simp only [lengthPort, BitVec.toNat_ofNat]
  exact Nat.mod_eq_of_lt (by omega)

/-- The lanes hold the first bytes of the buffer. -/
theorem bufferLanes_take (n k : Nat) (buf : List Byte) (hk : k ≤ min buf.length n) :
    (bufferLanes n buf).toList.take k = buf.take k := by
  have : k ≤ (buf.take n).length := by simp; omega
  simp only [bufferLanes, Vector.toList_mk]
  rw [List.take_append_of_le_length this, List.take_take]
  congr 1; omega

/-- The buffer a decode reads has as many bytes as the length says and the lanes hold (R41). -/
theorem readBuffer_length {c : PortWidths} (p : ReqPorts c) : (readBuffer p).length = min p.len.toNat c.bufMax := by
  simp [readBuffer]

end Sys2Proof
end

