-- ==== Sys2Proof/Laws/Operands.lean ====
section
/-! SUPPORT. What the helpers of 00_scope.md section 5 and the byte accesses do, said once. -/

namespace Sys2Proof.Machine

/-- A clamped value lies within its bounds (40_encode.md R54 b). -/
theorem clamp_mem {lo hi : Int} (h : lo ≤ hi) (v : Int) : lo ≤ clamp v lo hi ∧ clamp v lo hi ≤ hi := by
  unfold clamp; split
  · omega
  · split <;> omega

/-- A value within the bounds is unchanged: the ranges are inclusive (R54 e). -/
theorem clamp_of_mem {v lo hi : Int} (hl : lo ≤ v) (hh : v ≤ hi) : clamp v lo hi = v := by
  unfold clamp; split
  · omega
  · split <;> omega

/-- Bit 15 of a 16-bit number decides between its two halves. -/
theorem s16_eq {u : Nat} (h : u < 65536) : s16 u = if u < 32768 then (u : Int) else (u : Int) - 65536 := by
  unfold s16 bitsOf two16
  split <;> split <;> omega

theorem toU16_of_nonneg {c : Int} (h : 0 ≤ c) : toU16 c = c.toNat := by simp [toU16, h]

theorem toU16_of_neg {c : Int} (h : c < 0) : toU16 c = (c + 65536).toNat := by
  simp [toU16, two16, Int.not_le.mpr h]

theorem toU16_lt {c : Int} (hl : -32768 ≤ c) (hh : c ≤ 32767) : toU16 c < 65536 := by
  rcases Int.le_total 0 c with h | h
  · rw [toU16_of_nonneg h]; omega
  · unfold toU16 two16; split <;> omega

/-- `s16(to_u16(c)) = c` (00_scope.md section 5). -/
theorem s16_toU16 {c : Int} (hl : -32768 ≤ c) (hh : c ≤ 32767) : s16 (toU16 c) = c := by
  rw [s16_eq (toU16_lt hl hh)]
  unfold toU16 two16
  split <;> split <;> omega

/-- `to_u16(s16(u)) = u` (00_scope.md section 5). -/
theorem toU16_s16 {u : Nat} (h : u < 65536) : toU16 (s16 u) = u := by
  rw [s16_eq h]
  unfold toU16 two16
  split <;> split <;> omega

/-- The range of a recovered two's-complement number (41_decode.md R65). -/
theorem s16_mem {u : Nat} (h : u < 65536) : -32768 ≤ s16 u ∧ s16 u ≤ 32767 := by
  rw [s16_eq h]; split <;> omega

/-- A two-byte read of a buffer (20_memory.md R22). -/
theorem memRead_two (b0 b1 : Byte) (rest : List Byte) :
    memRead (b0 :: b1 :: rest) 0 2 = some (b0.toNat * 256 + b1.toNat) := by
  simp [memRead, bigEndian]

/-- The length check of 41_decode.md R60 and R61. -/
theorem raw16_short {buf : List Byte} (h : buf.length < 2) : raw16 buf = none := by
  simp [raw16, minRead, h]

/-- The raw value of 41_decode.md R60: the first two bytes, whatever follows. -/
theorem raw16_cons (b0 b1 : Byte) (rest : List Byte) :
    raw16 (b0 :: b1 :: rest) = some (b0.toNat * 256 + b1.toNat) := by
  simp [raw16, minRead, fieldBytes, memRead_two]

/-- Every buffer is short or has a raw value below 65536. -/
theorem raw16_cases (buf : List Byte) :
    (buf.length < 2 ∧ raw16 buf = none) ∨
    ∃ b0 b1 rest, buf = b0 :: b1 :: rest ∧ raw16 buf = some (b0.toNat * 256 + b1.toNat) ∧
      b0.toNat * 256 + b1.toNat < 65536 := by
  match buf with
  | [] => exact .inl ⟨by simp, rfl⟩
  | [_] => exact .inl ⟨by simp, rfl⟩
  | b0 :: b1 :: rest =>
    refine .inr ⟨b0, b1, rest, rfl, raw16_cons b0 b1 rest, ?_⟩
    have := b0.isLt
    have := b1.isLt
    omega

/-- The two bytes of a field written at `off` (R22). -/
theorem memWrite_two (pay : Payload) (off v : Nat) :
    memWrite pay off 2 v =
      (pay.setIfInBounds off (BitVec.ofNat 8 (v / 256))).setIfInBounds (off + 1) (BitVec.ofNat 8 v) := by
  simp [memWrite]

/-- The eight bytes of an encode result (20_memory.md R21, 40_encode.md R50). -/
theorem encodePayload_toList (x : Lanes Int) (lim : Int) :
    (encodePayload x lim).toList =
      [BitVec.ofNat 8 (toU16 (clamp x.m1 (-lim) lim) / 256), BitVec.ofNat 8 (toU16 (clamp x.m1 (-lim) lim)),
       BitVec.ofNat 8 (toU16 (clamp x.m2 (-lim) lim) / 256), BitVec.ofNat 8 (toU16 (clamp x.m2 (-lim) lim)),
       BitVec.ofNat 8 (toU16 (clamp x.m3 (-lim) lim) / 256), BitVec.ofNat 8 (toU16 (clamp x.m3 (-lim) lim)),
       BitVec.ofNat 8 (toU16 (clamp x.m4 (-lim) lim) / 256), BitVec.ofNat 8 (toU16 (clamp x.m4 (-lim) lim))] := by
  simp [encodePayload, clampedCommand, Lanes.map, MotorChannel.all, memWrite_two, channelOffset, channelOrdinal, fieldBytes, Lanes.get,
    Vector.toList_setIfInBounds]

end Sys2Proof.Machine
end

