-- ==== Sys2Proof/Laws/State.lean ====
section
/-! SUPPORT. One lemma per field and update of State and of the response ports. -/

namespace Sys2Proof.Machine

@[simp] theorem takeRequest_requests (s : State) : (takeRequest s).requests = s.requests.tail := rfl
@[simp] theorem takeRequest_rsp (s : State) : (takeRequest s).rsp = s.rsp := rfl
@[simp] theorem takeRequest_history (s : State) : (takeRequest s).history = s.history := rfl
@[simp] theorem takeRequest_draws (s : State) : (takeRequest s).draws = s.draws := rfl

@[simp] theorem respondWith_requests (i : Instr) (r : Response) (s : State) :
    (respondWith i r s).requests = s.requests := rfl
@[simp] theorem respondWith_rsp (i : Instr) (r : Response) (s : State) :
    (respondWith i r s).rsp = responsePorts Config.widths s.draws r := rfl
@[simp] theorem respondWith_history (i : Instr) (r : Response) (s : State) :
    (respondWith i r s).history = s.history ++ [{ request := i, response := r }] := rfl
@[simp] theorem respondWith_draws (i : Instr) (r : Response) (s : State) :
    (respondWith i r s).draws = s.draws + 1 := rfl

@[simp] theorem idle_requests (s : State) : (idle s).requests = s.requests := rfl
@[simp] theorem idle_rsp (s : State) : (idle s).rsp = quietPorts Config.widths s.draws := rfl
@[simp] theorem idle_history (s : State) : (idle s).history = s.history := rfl
@[simp] theorem idle_draws (s : State) : (idle s).draws = s.draws + 1 := rfl

@[simp] theorem withFetchWord_requests (s : State) (nbits w : Nat) :
    (s.withFetchWord nbits w).requests = tableRequest Config.widths w :: s.requests := rfl
@[simp] theorem withFetchWord_rsp (s : State) (nbits w : Nat) : (s.withFetchWord nbits w).rsp = s.rsp := rfl
@[simp] theorem withFetchWord_history (s : State) (nbits w : Nat) :
    (s.withFetchWord nbits w).history = s.history := rfl
@[simp] theorem withFetchWord_draws (s : State) (nbits w : Nat) : (s.withFetchWord nbits w).draws = s.draws := rfl

@[simp] theorem quietPorts_valid (c : PortWidths) (draw : Nat) : (quietPorts c draw).valid = false := rfl
@[simp] theorem responsePorts_valid (c : PortWidths) (draw : Nat) (r : Response) :
    (responsePorts c draw r).valid = true := rfl
@[simp] theorem responsePorts_err (c : PortWidths) (draw : Nat) (r : Response) :
    (responsePorts c draw r).err = errFlag r := rfl
@[simp] theorem responsePorts_pay (c : PortWidths) (draw : Nat) (pay : Payload) :
    (responsePorts c draw (.payload pay)).pay = pay := rfl
@[simp] theorem responsePorts_volts (c : PortWidths) (draw raw : Nat) :
    (responsePorts c draw (.volts raw)).volts = voltsPattern raw := rfl
@[simp] theorem responsePorts_ticks (c : PortWidths) (draw : Nat) (t : Int) :
    (responsePorts c draw (.ticks t)).ticks = BitVec.ofInt c.outW t := rfl

@[simp] theorem presented_cons (s : State) (p : ReqPorts Config.widths) (rest : List (ReqPorts Config.widths))
    (h : s.requests = p :: rest) : presented s = p := by
  simp [presented, h]

@[simp] theorem presented_nil (s : State) (h : s.requests = []) : presented s = idlePorts Config.widths := by
  simp [presented, h]

end Sys2Proof.Machine
end

