-- ==== Sys2Proof/Laws/Exec.lean ====
section
/-! SUPPORT. What one step can do, said once; later proofs cite these and unfold no meaning. -/

namespace Sys2Proof.Machine

/-- Every operation gives the response the abstract form gives (30_encoding.md R47) and does nothing else. -/
theorem exec_eq (i : Instr) (s : State) : exec i s = .next (respondWith i (respond i) s) := by
  cases i <;> rfl

/-- The two things a step can do: serve the presented request, or be idle. -/
theorem step_cases (s : State) :
    (∃ i, decode (presented s) = .ok i ∧ step s = .next (respondWith i (respond i) (takeRequest s))) ∨
    ((presented s).valid = false ∧ step s = .next (idle (takeRequest s))) := by
  cases hv : (presented s).valid with
  | true =>
    have hd := decode_of_valid hv
    exact .inl ⟨_, hd, by rw [step, hd]; exact exec_eq _ _⟩
  | false => exact .inr ⟨rfl, by rw [step, decode_of_not_valid hv]⟩

/-- A run of one step more. -/
theorem run_succ {s t : State} (h : step s = .next t) (k : Nat) :
    Sys2Proof.core.run (k + 1) s = Sys2Proof.core.run k t := by
  have h' : Sys2Proof.core.step s = .next t := h
  simp only [Host.Core.run, h']

/-- The four results in the terms of the rules R51, R52, R63 and R65. -/
theorem respond_decodeBattery_short {buf : List Byte} (h : buf.length < 2) :
    respond (.decodeBattery buf) = .shortRead := by
  simp [respond, batteryResponse, orShortRead, raw16_short h]

theorem respond_decodeBattery_cons (b0 b1 : Byte) (rest : List Byte) :
    respond (.decodeBattery (b0 :: b1 :: rest)) = .volts (b0.toNat * 256 + b1.toNat) := by
  simp [respond, batteryResponse, orShortRead, raw16_cons]

theorem respond_decodeEncoder_short {buf : List Byte} (h : buf.length < 2) :
    respond (.decodeEncoder buf) = .shortRead := by
  simp [respond, encoderResponse, orShortRead, raw16_short h]

theorem respond_decodeEncoder_cons (b0 b1 : Byte) (rest : List Byte) :
    respond (.decodeEncoder (b0 :: b1 :: rest)) = .ticks (s16 (b0.toNat * 256 + b1.toNat)) := by
  simp [respond, encoderResponse, orShortRead, raw16_cons]

end Sys2Proof.Machine
end

