-- ==== Sys2Proof/Laws/PerInstr.lean ====
section
/-! SUPPORT. The family Opcode: the select an instruction is encoded with (30_encoding.md R37). -/

namespace Sys2Proof.Laws.Opcode

/-- A request is presented, its select is the instruction's, and bit 1 of the select is its direction: 0 for the encode
format E, 1 for the decode format D (R37). -/
def Statement (i : Instr) : Prop :=
  (encode Config.widths i).valid = true ∧ (encode Config.widths i).op = i.opcode ∧
    (i.opcode.getLsbD 1 = true ↔ i.format = .formatD)

theorem encodeSpeeds (x : Lanes Int) : Statement (.encodeSpeeds x) := by
  exact ⟨rfl, rfl, by simp [Instr.opcode, Instr.format]⟩

theorem encodePwm (x : Lanes Int) : Statement (.encodePwm x) := by
  exact ⟨rfl, rfl, by simp [Instr.opcode, Instr.format]⟩

theorem decodeBattery (buf : List Byte) : Statement (.decodeBattery buf) := by
  exact ⟨rfl, rfl, by simp [Instr.opcode, Instr.format]⟩

theorem decodeEncoder (buf : List Byte) : Statement (.decodeEncoder buf) := by
  exact ⟨rfl, rfl, by simp [Instr.opcode, Instr.format]⟩

end Sys2Proof.Laws.Opcode
end

