-- ==== Sys2Proof/Laws/Transport.lean ====
section
/-! SUPPORT. What a call owes the access column, said once for a call at a named register. -/

namespace Sys2Proof.Machine

/-- A call at a named register with the register's access is permitted (20_memory.md R28), whatever the open offsets
are. -/
theorem permitted_of_access {call : TransportCall} {reg : BoardRegister} (haddr : call.registerAddr = reg.offset)
    (hacc : reg.access = call.access) : call.Permitted := .inl ⟨reg, haddr.symm, hacc⟩

/-- A permitted call at a named register whose offset no other register has makes that register's access. -/
theorem access_of_permitted {call : TransportCall} {reg : BoardRegister} (h : call.Permitted)
    (haddr : call.registerAddr = reg.offset) (huniq : ∀ other : BoardRegister, other.offset = reg.offset → other = reg) :
    reg.access = call.access := by
  rcases h with ⟨other, hoff, hacc⟩ | hnone
  · rw [← huniq other (hoff.trans haddr)]
    exact hacc
  · exact absurd haddr.symm (hnone reg)

end Sys2Proof.Machine
end

