-- ==== Sys2Proof/Tests/Slice0.lean ====
section
/-! SUPPORT. Tests. Expected values come from 95_test_vectors.md and the corner cases of 40_encode.md and 41_decode.md.
The witnesses show, for each statement with hypotheses, inputs that meet them together. -/

namespace Sys2Proof.Tests

open Sys2Proof Sys2Proof.Machine

/-- Four channel values. -/
def lanes {α : Type} (a b c d : α) : Lanes α := { m1 := a, m2 := b, m3 := c, m4 := d }

/-- One request at the ports of State. -/
def portRequest (op : BitVec 2) (ch : Lanes (BitVec 32)) (len : BitVec 4) (buf : Vector Byte 8) :
    ReqPorts Config.widths :=
  { valid := true, op := op, ch := ch, len := len, buf := buf }

/-- The reset state with these requests to come. -/
def withRequests (ps : List (ReqPorts Config.widths)) : State := { State.reset with requests := ps }

/-- A field of the next state, if there is one. -/
def nextField {α : Type} (o : Host.Outcome State Fault Refusal) (f : State → α) : Option α :=
  match o with
  | .next t => some (f t)
  | .fault _ => none
  | .refused _ => none

/-! ## Well-formedness: one ill-formed term for each check -/

theorem test_operand_above_port_is_ill_formed :
    (Instr.encodeSpeeds (lanes 0 2147483648 0 0)).wellFormed Config.widths = false := by decide

theorem test_operand_below_port_is_ill_formed :
    (Instr.encodePwm (lanes 0 0 0 (-2147483649))).wellFormed Config.widths = false := by decide

theorem test_extreme_operands_are_well_formed :
    (Instr.encodePwm (lanes 2147483647 (-2147483648) 0 0)).wellFormed Config.widths = true := by decide

theorem test_battery_buffer_over_lanes_is_ill_formed :
    (Instr.decodeBattery [0, 1, 2, 3, 4, 5, 6, 7, 8]).wellFormed Config.widths = false := by decide

theorem test_encoder_buffer_over_lanes_is_ill_formed :
    (Instr.decodeEncoder [0, 1, 2, 3, 4, 5, 6, 7, 8]).wellFormed Config.widths = false := by decide

theorem test_full_lanes_are_well_formed :
    (Instr.decodeBattery [0, 1, 2, 3, 4, 5, 6, 7]).wellFormed Config.widths = true := by decide

/-! ## Decoding: every operation, ports written out from 30_encoding.md R36 and R37 -/

/-- Vector S6 in port form (95 section 2.1). -/
theorem test_decode_encode_speeds :
    decode (portRequest 0b00 (lanes 0x000003E9 0xFFFFFC17 0x000003E8 0xFFFFFC18) 0b0000 #v[9, 9, 9, 9, 9, 9, 9, 9]) =
      .ok (.encodeSpeeds (lanes 1001 (-1001) 1000 (-1000))) := by decide

/-- P4 (95 section 3). -/
theorem test_decode_encode_pwm :
    decode (portRequest 0b01 (lanes 0xFFFFF060 0x00000FA0 0 1) 0b1111 #v[0, 0, 0, 0, 0, 0, 0, 0]) =
      .ok (.encodePwm (lanes (-4000) 4000 0 1)) := by decide

/-- P2 line 3 (95 section 3): one byte returned. -/
theorem test_decode_decode_battery :
    decode (portRequest 0b10 (lanes 1 2 3 4) 0b0001 #v[0x01, 0x2C, 0, 0, 0, 0, 0, 0]) =
      .ok (.decodeBattery [0x01]) := by decide

/-- A `req_len` of 15 with eight lanes (95 section 2.3). -/
theorem test_decode_decode_encoder_long :
    decode (portRequest 0b11 (lanes 0 0 0 0) 0b1111 #v[0xFF, 0xFB, 1, 2, 3, 4, 5, 6]) =
      .ok (.decodeEncoder [0xFF, 0xFB, 1, 2, 3, 4, 5, 6]) := by decide

theorem test_no_request_is_rejected : decode (idlePorts Config.widths) = .error .noRequest := by decide

theorem test_table_words :
    [0, 1, 2, 3].map (decodeTableWord 8) =
      [some (.encodeSpeeds (lanes 0 0 0 0)), some (.encodePwm (lanes 0 0 0 0)), some (.decodeBattery []),
       some (.decodeEncoder [])] := by decide

/-- P3 line 5 (95 section 3) as the encoder writes it. -/
theorem test_encode_decode_encoder :
    encode Config.widths (.decodeEncoder [0xFB, 0x2E]) =
      portRequest 0b11 (lanes 0 0 0 0) 0b0010 #v[0xFB, 0x2E, 0, 0, 0, 0, 0, 0] := by decide

/-! ## ENCODE_SPEEDS and ENCODE_PWM (95 section 2.1) -/

theorem test_speeds_saturate_and_keep_bounds :
    nextField (exec (.encodeSpeeds (lanes 1001 (-1001) 1000 (-1000))) State.reset) (fun t => t.rsp.pay) =
      some #v[0x03, 0xE8, 0xFC, 0x18, 0x03, 0xE8, 0xFC, 0x18] := by decide

theorem test_speeds_clamp_before_truncation :
    nextField (exec (.encodeSpeeds (lanes 64536 (-64536) 1000000000000 (-7))) State.reset) (fun t => t.rsp.pay) =
      some #v[0x03, 0xE8, 0xFC, 0x18, 0x03, 0xE8, 0xFF, 0xF9] := by decide

theorem test_pwm_bound_is_its_own :
    nextField (exec (.encodePwm (lanes 1001 (-1001) 3601 (-3601))) State.reset) (fun t => t.rsp.pay) =
      some #v[0x03, 0xE9, 0xFC, 0x17, 0x0E, 0x10, 0xF1, 0xF0] := by decide

theorem test_pwm_byte_order_and_channel_order :
    nextField (exec (.encodePwm (lanes 255 256 (-255) (-256))) State.reset) (fun t => t.rsp.pay) =
      some #v[0x00, 0xFF, 0x01, 0x00, 0xFF, 0x01, 0xFF, 0x00] := by decide

/-! ## DECODE_BATTERY and DECODE_ENCODER (95 sections 2.2 and 2.3) -/

theorem test_battery_is_unsigned_big_endian :
    nextField (exec (.decodeBattery [0x80, 0x01]) State.reset) (fun t => (t.rsp.err, t.rsp.volts)) =
      some (false, 0x40A999CCCCCCCCCD) := by decide

theorem test_battery_one_byte_is_short :
    nextField (exec (.decodeBattery [0x00]) State.reset) (fun t => (t.rsp.err, responses t)) =
      some (true, [.shortRead]) := by decide

theorem test_encoder_is_signed :
    nextField (exec (.decodeEncoder [0xFF, 0xFB, 0x7F, 0xFF]) State.reset) (fun t => (t.rsp.ticks, responses t)) =
      some (0xFFFFFFFB, [.ticks (-5)]) := by decide

theorem test_encoder_low_byte_has_no_sign :
    nextField (exec (.decodeEncoder [0x00, 0x80]) State.reset) (fun t => responses t) = some [.ticks 128] := by decide

/-- The binary64 column of 95 section 2.2. -/
theorem test_volts_patterns :
    [0, 1, 5, 74, 84, 111, 126, 300, 11265, 32767, 61936, 65531, 65535].map voltsPattern =
      [0x0000000000000000, 0x3FB999999999999A, 0x3FE0000000000000, 0x401D99999999999A, 0x4020CCCCCCCCCCCD,
       0x4026333333333333, 0x4029333333333333, 0x403E000000000000, 0x40919A0000000000, 0x40A9996666666666,
       0x40B831999999999A, 0x40B999199999999A, 0x40B9998000000000] := by decide

/-! ## One step, text, transport -/

/-- P3 line 1 (95 section 3), from the ports to the ports. -/
theorem test_step_serves_ports :
    nextField (step (withRequests [portRequest 0b01 (lanes 0x00001388 0xFFFFEC78 0x000004D2 0xFFFFFB2E) 0 #v[0, 0, 0, 0, 0, 0, 0, 0]]))
      (fun t => (t.rsp.valid, t.rsp.err, t.rsp.pay, t.requests)) =
      some (true, false, #v[0x0E, 0x10, 0xF1, 0xF0, 0x04, 0xD2, 0xFB, 0x2E], []) := by decide

theorem test_step_idle :
    nextField (step State.reset) (fun t => (t.rsp.valid, t.history)) = some (false, []) := by decide

theorem test_step_runs_table_word :
    nextField (step (State.reset.withFetchWord 8 2)) (fun t => t.history) =
      some [{ request := .decodeBattery [], response := .shortRead }] := by decide

/-- Lines of 95 section 3, with R45's comment. -/
theorem test_assemble_encode :
    assemble "ENCODE_SPEEDS  300, -300, 1200, -1200 ; drive".toList =
      some (.encodeSpeeds (lanes 300 (-300) 1200 (-1200))) := by decide

theorem test_assemble_decode :
    ["DECODE_BATTERY [0x00, 0x7E, 0xAA, 0xBB]", "DECODE_ENCODER []", "STOP_PWM", "STOP_SPEEDS ; halt"].map (fun t => assemble t.toList) =
      [some (.decodeBattery [0x00, 0x7E, 0xAA, 0xBB]), some (.decodeEncoder []), some stopPwm,
       some stopSpeeds] := by decide

theorem test_assemble_rejects :
    ["ENCODE_SPEEDS 1, 2, 3", "DECODE_ENCODER [0x1]", "STOP_PWM 1", "HALT"].map (fun t => assemble t.toList) =
      [none, none, none, none] := by decide

theorem test_response_text :
    [speedsResponse (lanes 300 (-300) 1200 (-1200)), batteryResponse [0x00, 0x7E], encoderResponse [0xFF, 0x38],
     encoderResponse [0x12]].map responseText =
      ["-> [01 2C FE D4 03 E8 FC 18]".toList, "-> volts 12.6".toList, "-> ticks -200".toList,
       "-> ShortRead".toList] := by decide

/-- 20_memory.md R31: a failed write and a good one of the same bytes are different calls. -/
theorem test_failed_write_is_told_from_good :
    (TransportCall.write 0x10 [0, 0] (.error .transportError)).Failed ∧
    ¬ (TransportCall.write 0x10 [0, 0] (.ok ())).Failed :=
  ⟨rfl, fun h => by cases h⟩

/-- R31 and decision D19: a read at any byte, the open offset of M2's encoder register among them, is a call. -/
theorem test_call_at_any_address :
    (TransportCall.read (encoderOffset .m2) 2 (.ok [0x00, 0x05])).registerAddr = Config.regEncM2 ∧
    (TransportCall.write 0xFF [] (.ok ())).registerAddr = 0xFF := ⟨rfl, rfl⟩

theorem test_serialised :
    serialised none [.begins 1, .completes 1, .begins 2, .completes 2] = true ∧
    serialised none [.begins 1, .begins 2, .completes 1, .completes 2] = false := by decide

/-- The model's choice of log entry 19. -/
theorem test_trace_ending_in_a_transaction_is_not_serialised :
    serialised none [.begins 1, .completes 1, .begins 2] = false := by decide

/-! ## Witnesses: inputs that meet each statement's hypotheses -/

/-- A request for witnesses: DECODE_ENCODER of two bytes and a third. -/
def sampleRequest : ReqPorts Config.widths := portRequest 0b11 (lanes 0 0 0 0) 0b0011 #v[0xFF, 0xFB, 7, 0, 0, 0, 0, 0]

theorem witness_StepRunsThePresentedRequest :
    (withRequests [sampleRequest]).requests = sampleRequest :: [] ∧
    decode sampleRequest = .ok (.decodeEncoder [0xFF, 0xFB, 7]) := by decide

theorem witness_FetchWordRunsNext : decodeTableWord 8 3 = some (.decodeEncoder []) := by decide

theorem witness_IdleStepGivesNoResponse :
    State.reset.requests = [] ∧
    (withRequests [idlePorts Config.widths, sampleRequest]).requests = idlePorts Config.widths :: [sampleRequest] ∧
    (idlePorts Config.widths).valid = false := by decide

/-- The smallest legal widths, with operands at the edge of the port and full lanes; and the defaults. -/
theorem witness_DecodeOfEncodeIsIdentity :
    ({ inW := 13, outW := 16, bufMax := 2, lenW := 2 } : PortWidths).Legal ∧
    (Instr.encodePwm (lanes 4095 (-4096) 3600 (-3600))).wellFormed { inW := 13, outW := 16, bufMax := 2, lenW := 2 } = true ∧
    (Instr.decodeBattery [1, 2]).wellFormed { inW := 13, outW := 16, bufMax := 2, lenW := 2 } = true ∧
    Config.widths.Legal := by decide

/-- A format E request, and format D requests with a length below, at and above BUF_MAX. -/
theorem witness_EncodeOfDecodeKeepsReadFields :
    Config.widths.Legal ∧
    decode (portRequest 0b00 (lanes 1 2 3 4) 0b1111 #v[1, 2, 3, 4, 5, 6, 7, 8]) =
      .ok (.encodeSpeeds (lanes 1 2 3 4)) ∧
    (Instr.encodeSpeeds (lanes 1 2 3 4)).format = .formatE ∧
    decode sampleRequest = .ok (.decodeEncoder [0xFF, 0xFB, 7]) ∧
    decode (portRequest 0b10 (lanes 0 0 0 0) 0b1000 #v[1, 2, 3, 4, 5, 6, 7, 8]) =
      .ok (.decodeBattery [1, 2, 3, 4, 5, 6, 7, 8]) ∧
    decode (portRequest 0b10 (lanes 0 0 0 0) 0b1111 #v[1, 2, 3, 4, 5, 6, 7, 8]) =
      .ok (.decodeBattery [1, 2, 3, 4, 5, 6, 7, 8]) ∧
    (Instr.decodeBattery [1, 2, 3, 4, 5, 6, 7, 8]).format = .formatD := by decide

/-- A buffer of twenty bytes, more than the lanes and than the length port. -/
theorem witness_AnyBufferCanBePresented :
    Config.widths.Legal ∧
    operandsFit Config.widths.inW (Instr.decodeEncoder (List.replicate 20 5#8)).channels = true := by decide

/-- For the encodes: equal lanes, all else different. For the decodes: both short, and both long with equal lanes 0
and 1 and all else different. -/
theorem witness_IgnoredFieldsDoNotMatter :
    Config.widths.Legal ∧
    (∃ p q : ReqPorts Config.widths, p ≠ q ∧ p.valid = true ∧ q.valid = true ∧ p.op = q.op ∧
      p.op.getLsbD 1 = false ∧ p.ch = q.ch) ∧
    (∃ p q : ReqPorts Config.widths, p ≠ q ∧ p.valid = true ∧ q.valid = true ∧ p.op = q.op ∧
      p.op.getLsbD 1 = true ∧ p.len.toNat < 2 ∧ q.len.toNat < 2) ∧
    (∃ p q : ReqPorts Config.widths, p ≠ q ∧ p.valid = true ∧ q.valid = true ∧ p.op = q.op ∧
      p.op.getLsbD 1 = true ∧ 2 ≤ p.len.toNat ∧ 2 ≤ q.len.toNat ∧ p.buf[0]? = q.buf[0]? ∧ p.buf[1]? = q.buf[1]?) :=
  ⟨by decide,
   ⟨portRequest 1 (lanes 1 2 3 4) 0 #v[0, 0, 0, 0, 0, 0, 0, 0], portRequest 1 (lanes 1 2 3 4) 9 #v[1, 1, 1, 1, 1, 1, 1, 1],
     by decide⟩,
   ⟨portRequest 2 (lanes 1 2 3 4) 0 #v[0, 0, 0, 0, 0, 0, 0, 0], portRequest 2 (lanes 0 0 0 0) 1 #v[1, 1, 1, 1, 1, 1, 1, 1],
     by decide⟩,
   ⟨portRequest 3 (lanes 1 2 3 4) 2 #v[8, 9, 0, 0, 0, 0, 0, 0], portRequest 3 (lanes 0 0 0 0) 15 #v[8, 9, 1, 1, 1, 1, 1, 1],
     by decide⟩⟩

/-- Requests for the `req_op` clauses: the select `op`, and every other port set. -/
def selectRequest (op : BitVec 2) : ReqPorts Config.widths := portRequest op (lanes 1 2 3 4) 2 #v[1, 2, 3, 4, 5, 6, 7, 8]

theorem witness_EncodeSpeedsWritesClampedFields : (selectRequest 0).valid = true ∧ (selectRequest 0).op = 0#2 := by decide

theorem witness_EncodePwmWritesClampedFields : (selectRequest 1).valid = true ∧ (selectRequest 1).op = 1#2 := by decide

/-- The select, and buffers on both sides of the length check. -/
theorem witness_DecodeBatteryReadsUnsignedTenths :
    (selectRequest 2).valid = true ∧ (selectRequest 2).op = 2#2 ∧ ([0xFF] : List Byte).length < 2 ∧
    ([0x80, 0x00] : List Byte) = 0x80 :: 0x00 :: [] := by decide

/-- The same, with the lowest and the highest bit above the raw value, and the narrowest and the default tick port. -/
theorem witness_DecodeEncoderRecoversSign :
    (selectRequest 3).valid = true ∧ (selectRequest 3).op = 3#2 ∧ ([] : List Byte).length < 2 ∧
    ([0x80, 0x00, 7] : List Byte) = 0x80 :: 0x00 :: [7] ∧ (16 ≤ 16 ∧ 16 < 32) ∧ (16 ≤ 31 ∧ 31 < 32) ∧
    16 ≤ Config.widths.outW ∧ 16 ≤ ({ inW := 13, outW := 16, bufMax := 2, lenW := 2 } : PortWidths).outW := by decide

/-- Both decodes, and a buffer of exactly two bytes. -/
theorem witness_ShortReadExactlyWhenUnderTwoBytes :
    Instr.decodeBattery ∈ [Instr.decodeBattery, Instr.decodeEncoder] ∧
    Instr.decodeEncoder ∈ [Instr.decodeBattery, Instr.decodeEncoder] ∧ 2 ≤ ([0xFF, 0xFB] : List Byte).length := by
  simp

theorem witness_TrailingBytesAreIgnored :
    Instr.decodeBattery ∈ [Instr.decodeBattery, Instr.decodeEncoder] ∧
    Instr.decodeEncoder ∈ [Instr.decodeBattery, Instr.decodeEncoder] := by simp

/-- Buffers of 0, 1, 2 and 3 bytes. -/
theorem witness_BothDecodesShareOneFrontEnd :
    ([] : List Byte).length < 2 ∧ ([0xFF] : List Byte).length < 2 ∧ 2 ≤ ([0xFF, 0xFB] : List Byte).length ∧
    2 ≤ ([0xFF, 0xFB, 7] : List Byte).length := by decide

/-- The two encodes with their bounds. -/
theorem witness_EncodeThenDecodeReturnsClampedValue :
    (Instr.encodeSpeeds, (1000 : Int)) ∈ [(Instr.encodeSpeeds, (1000 : Int)), (Instr.encodePwm, 3600)] ∧
    (Instr.encodePwm, (3600 : Int)) ∈ [(Instr.encodeSpeeds, (1000 : Int)), (Instr.encodePwm, 3600)] := by simp

/-- A payload of zeros, from the all-zero command. -/
theorem witness_OnlyAnAllZeroCommandStops :
    nextField (exec (.encodeSpeeds (lanes 0 0 0 0)) State.reset) (fun t => t.rsp.pay) = some #v[0, 0, 0, 0, 0, 0, 0, 0] ∧
    nextField (exec (.encodePwm (lanes 0 0 0 0)) State.reset) (fun t => t.rsp.pay) = some #v[0, 0, 0, 0, 0, 0, 0, 0] := by
  decide

/-- The edges of the two ranges. -/
theorem witness_EncodedFieldIsNearestInRange :
    (Instr.encodeSpeeds, (1000 : Int)) ∈ [(Instr.encodeSpeeds, (1000 : Int)), (Instr.encodePwm, 3600)] ∧
    (Instr.encodePwm, (3600 : Int)) ∈ [(Instr.encodeSpeeds, (1000 : Int)), (Instr.encodePwm, 3600)] ∧
    (-(1000 : Int) ≤ -1000 ∧ (-1000 : Int) ≤ 1000) ∧ (-(3600 : Int) ≤ 3600 ∧ (3600 : Int) ≤ 3600) := by simp

/-- The two sides of the sign boundary, both decodes on one buffer. -/
theorem witness_TwoDecodesOfOneBuffer :
    respond (.decodeBattery [0x7F, 0xFF]) = .volts 32767 ∧ respond (.decodeEncoder [0x7F, 0xFF]) = .ticks 32767 ∧
    respond (.decodeBattery [0x80, 0x00]) = .volts 32768 ∧ respond (.decodeEncoder [0x80, 0x00]) = .ticks (-32768) ∧
    (32767 : Nat) < 32768 ∧ (32768 : Nat) ≤ 32768 := by decide

/-- The two binary64 numbers 0 and 1, distinct: one is not the reading of the other's buffer. -/
theorem witness_VoltsPatternIsNearest :
    binary64Value 0x0000000000000000#64 = some 0 ∧ binary64Value 0x3FF0000000000000#64 = some 1 ∧ (1 : Rat) ≠ 0 := by
  have zero : bitsOf (0x0000000000000000#64).toNat 62 52 = 0 ∧ bitsOf (0x0000000000000000#64).toNat 51 0 = 0 := by decide
  have one : bitsOf (0x3FF0000000000000#64).toNat 62 52 = 1023 ∧ bitsOf (0x3FF0000000000000#64).toNat 51 0 = 0 ∧
      bitsOf (0x3FF0000000000000#64).toNat 63 63 = 0 := by decide
  refine ⟨?_, ?_, by norm_num⟩
  · simp only [binary64Value, zero]; norm_num
  · simp only [binary64Value, one]; norm_num

/-- The last field of a payload and its largest value, and a byte outside it. -/
theorem witness_SixteenBitQuantitiesAreBigEndian :
    (6 : Nat) + 2 ≤ 8 ∧ (65535 : Nat) < 65536 ∧ (5 : Nat) ≠ 6 ∧ (5 : Nat) ≠ 6 + 1 := by decide

/-- A decode whose response another buffer shares. -/
theorem witness_EncodesSaturateAndDecodesFail :
    2 ≤ ([0xFF, 0xFB] : List Byte).length ∧
    respond (.decodeBattery [0xFF, 0xFB, 1]) = respond (.decodeBattery [0xFF, 0xFB]) ∧
    respond (.decodeEncoder [0xFF, 0xFB, 1]) = respond (.decodeEncoder [0xFF, 0xFB]) := by decide

/-- A state with a record and a shown response that meets the invariant, and its next step: a request, and none. -/
theorem witness_StepKeepsInvariant :
    (respondWith (.decodeBattery []) .shortRead (withRequests [sampleRequest])).Inv ∧
    (∃ t, step (respondWith (.decodeBattery []) .shortRead (withRequests [sampleRequest])) = .next t) ∧
    (respondWith (.decodeBattery []) .shortRead State.reset).Inv ∧
    ∃ t, step (respondWith (.decodeBattery []) .shortRead State.reset) = .next t := by
  have inv : ∀ ps, (respondWith (.decodeBattery []) .shortRead (withRequests ps)).Inv := fun ps => by
    refine ⟨fun e he => ?_, fun _ => ⟨{ request := .decodeBattery [], response := .shortRead }, ?_⟩⟩
    · simp [withRequests, State.reset] at he
      subst he
      exact ⟨rfl, trivial⟩
    · exact ⟨rfl, rfl, rfl⟩
  exact ⟨inv _, ⟨_, rfl⟩, inv [], ⟨_, rfl⟩⟩

/-- Two orders of two different requests. -/
theorem witness_RequestsCommute :
    [sampleRequest, tableRequest Config.widths 1].Perm [tableRequest Config.widths 1, sampleRequest] ∧
    (∀ p ∈ [sampleRequest, tableRequest Config.widths 1], p.valid = true) ∧
    (withRequests [sampleRequest, tableRequest Config.widths 1]).requests =
      [sampleRequest, tableRequest Config.widths 1] ∧
    (withRequests [tableRequest Config.widths 1, sampleRequest]).requests =
      [tableRequest Config.widths 1, sampleRequest] := by decide

/-- Program P4 (95 section 3), cut in two. -/
theorem witness_ProgramRunGivesItsResponses :
    (∀ i ∈ [Instr.encodePwm (lanes (-4000) 4000 0 1), .decodeEncoder [0x00, 0xFA]] ++
        [stopPwm, .decodeEncoder [0xFF, 0x06]], i.wellFormed Config.widths = true) ∧
    (withRequests (([Instr.encodePwm (lanes (-4000) 4000 0 1), .decodeEncoder [0x00, 0xFA]] ++
        [stopPwm, .decodeEncoder [0xFF, 0x06]]).map (encode Config.widths))).requests =
      ([Instr.encodePwm (lanes (-4000) 4000 0 1), .decodeEncoder [0x00, 0xFA]] ++
        [stopPwm, .decodeEncoder [0xFF, 0x06]]).map (encode Config.widths) := by decide

/-- An operation in each format, ShortRead among them. -/
theorem witness_ResponseFormatOfEachOperation :
    (Instr.decodeBattery [], if ([] : List Byte).length < 2 then RspFormat.formatX else RspFormat.formatV) ∈
      [(Instr.encodeSpeeds (lanes 0 0 0 0), RspFormat.formatP), (Instr.encodePwm (lanes 0 0 0 0), RspFormat.formatP),
       (Instr.decodeBattery [], if ([] : List Byte).length < 2 then RspFormat.formatX else RspFormat.formatV),
       (Instr.decodeEncoder [], if ([] : List Byte).length < 2 then RspFormat.formatX else RspFormat.formatT)] := by simp

/-- P1 line 3 (95 section 3): the payload of a stop, written to the speed register, with and
without a TransportError. -/
theorem witness_ContractedWriteFitsItsRegister :
    (respondWith stopSpeeds (respond stopSpeeds) State.reset).history.getLast? =
      some { request := stopSpeeds, response := respond stopSpeeds } ∧
    PayloadWrite { request := stopSpeeds, response := respond stopSpeeds } 
      (.write BoardRegister.speedControl.offset [0, 0, 0, 0, 0, 0, 0, 0] (.ok ())) ∧
    PayloadWrite { request := stopSpeeds, response := respond stopSpeeds }
      (.write BoardRegister.speedControl.offset [0, 0, 0, 0, 0, 0, 0, 0] (.error .transportError)) :=
  ⟨by decide, ⟨#v[0, 0, 0, 0, 0, 0, 0, 0], .ok (), by decide, rfl⟩,
   ⟨#v[0, 0, 0, 0, 0, 0, 0, 0], .error .transportError, by decide, rfl⟩⟩

/-- P2 (95 section 3): a battery read of four bytes, and an encoder read that returned one. -/
theorem witness_ContractedReadIsDecoded :
    BufferRead (.read BoardRegister.batteryVoltage.offset 4 (.ok [0x00, 0x7E, 0xAA, 0xBB])) (.decodeBattery [0x00, 0x7E, 0xAA, 0xBB]) ∧
    BufferRead (.read BoardRegister.encoderM1.offset 2 (.ok [0x12])) (.decodeEncoder [0x12]) :=
  ⟨⟨4, [0x00, 0x7E, 0xAA, 0xBB], rfl, .inl rfl⟩, ⟨2, [0x12], rfl, .inr rfl⟩⟩

end Sys2Proof.Tests
end

section
/-! The contract of one request (00_scope.md R7, R8): what the ports show, the fields an encode writes, the front end
the two decodes share. -/

namespace Sys2Proof.Machine

/-- The response ports of a response show it (30_encoding.md R42), whatever the unspecified ports hold. -/
theorem responsePorts_shows (c : PortWidths) (draw : Nat) (r : Response) : (responsePorts c draw r).Shows r := by
  cases r with
  | payload pay => exact ⟨rfl, rfl, rfl⟩
  | volts raw => exact ⟨rfl, rfl, rfl⟩
  | ticks t => exact ⟨rfl, rfl, rfl⟩
  | shortRead => exact ⟨rfl, rfl⟩

/-! ## The fields of a payload -/

/-- `clamp` with ordered bounds is saturation (R19). -/
theorem clamp_eq_max_min {lo hi : Int} (h : lo ≤ hi) (v : Int) : clamp v lo hi = max lo (min hi v) := by
  unfold clamp
  split
  · omega
  · split <;> omega

/-- The two bytes of a 16-bit number, high byte first, stand for it (20_memory.md R22). -/
theorem bigEndian_word {u : Nat} (h : u < 65536) : bigEndian [BitVec.ofNat 8 (u / 256), BitVec.ofNat 8 u] = u := by
  simp only [bigEndian, List.foldl_cons, List.foldl_nil, BitVec.toNat_ofNat]
  omega

/-- The field of a channel in a payload is `to_u16` of its clamped operand (40_encode.md R50). -/
theorem memRead_encodePayload {lim : Int} (h0 : 0 ≤ lim) (h1 : lim ≤ 32767) (x : Lanes Int) (k : MotorChannel) :
    memRead (encodePayload x lim).toList (2 * channelOrdinal k) 2 =
      some (toU16 (clamp (x.get k) (-lim) lim)) := by
  have hword (v : Int) : bigEndian [BitVec.ofNat 8 (toU16 (clamp v (-lim) lim) / 256),
      BitVec.ofNat 8 (toU16 (clamp v (-lim) lim))] = toU16 (clamp v (-lim) lim) := by
    obtain ⟨hl, hh⟩ := clamp_mem (show -lim ≤ lim by omega) v
    exact bigEndian_word (toU16_lt (by omega) (by omega))
  rw [encodePayload_toList]
  cases k <;> simp [memRead, channelOrdinal, Lanes.get, hword]

/-- The field of a channel, read as a signed number, is the operand saturated to the bounds (R8). -/
theorem encodePayload_saturates {lim : Int} (h0 : 0 ≤ lim) (h1 : lim ≤ 32767) (x : Lanes Int) (k : MotorChannel) :
    ∃ v : Nat, memRead (encodePayload x lim).toList (2 * channelOrdinal k) 2 = some v ∧
      s16 v = max (-lim) (min lim (x.get k)) := by
  have hle : -lim ≤ lim := by omega
  obtain ⟨hl, hh⟩ := clamp_mem hle (x.get k)
  exact ⟨_, memRead_encodePayload h0 h1 x k,
    (s16_toU16 (by omega) (by omega)).trans (clamp_eq_max_min hle _)⟩

/-! ## The front end of the decodes -/

/-- `s16` loses nothing of a 16-bit number. -/
theorem s16_inj {u v : Nat} (hu : u < 65536) (hv : v < 65536) (h : s16 u = s16 v) : u = v := by
  rw [← toU16_s16 hu, h, toU16_s16 hv]

/-- A raw value determines the two bytes it was read from. -/
theorem take_two_eq_of_raw16_eq {buf buf' : List Byte} {raw : Nat} (h : raw16 buf = some raw)
    (h' : raw16 buf' = some raw) : buf'.take 2 = buf.take 2 := by
  rcases raw16_cases buf with ⟨-, hn⟩ | ⟨b0, b1, rest, rfl, hs, -⟩
  · simp [hn] at h
  rcases raw16_cases buf' with ⟨-, hn'⟩ | ⟨c0, c1, rest', rfl, hs', -⟩
  · simp [hn'] at h'
  have hraw : c0.toNat * 256 + c1.toNat = b0.toNat * 256 + b1.toNat :=
    Option.some.inj (hs'.symm.trans (h'.trans (h.symm.trans hs)))
  have h0 : c0 = b0 := BitVec.eq_of_toNat_eq (by omega)
  have h1 : c1 = b1 := BitVec.eq_of_toNat_eq (by omega)
  simp [h0, h1]

/-- An operation `f` on a buffer is the length check and the raw value of 41_decode.md R60, and then `value`, which is
no failure and tells the raw values apart. -/
structure DecodesRaw16 (f : List Byte → Instr) (value : Nat → Response) : Prop where
  respond_eq : ∀ buf, respond (f buf) = orShortRead (raw16 buf) value
  no_error   : ∀ raw, errFlag (value raw) = false
  injective  : ∀ raw raw', raw < 65536 → raw' < 65536 → value raw = value raw' → raw = raw'

theorem decodeBattery_decodesRaw16 : DecodesRaw16 .decodeBattery .volts where
  respond_eq _ := rfl
  no_error _ := rfl
  injective _ _ _ _ h := Response.volts.inj h

theorem decodeEncoder_decodesRaw16 : DecodesRaw16 .decodeEncoder (fun raw => .ticks (s16 raw)) where
  respond_eq _ := rfl
  no_error _ := rfl
  injective _ _ hraw hraw' h := s16_inj hraw hraw' (Response.ticks.inj h)

/-- The two decode operations, in the form statements list them in. -/
theorem decodesRaw16_of_mem {f : List Byte → Instr} (hf : f ∈ [Instr.decodeBattery, Instr.decodeEncoder]) :
    ∃ value, DecodesRaw16 f value := by
  simp only [List.mem_cons, List.not_mem_nil, or_false] at hf
  rcases hf with rfl | rfl
  · exact ⟨_, decodeBattery_decodesRaw16⟩
  · exact ⟨_, decodeEncoder_decodesRaw16⟩

namespace DecodesRaw16

variable {f : List Byte → Instr} {value : Nat → Response} (hf : DecodesRaw16 f value)
include hf

/-- A short buffer gives the failure (R61). -/
theorem respond_short {buf : List Byte} (h : buf.length < 2) : respond (f buf) = .shortRead := by
  rw [hf.respond_eq, raw16_short h]
  rfl

/-- A buffer of two bytes or more has a raw value below 65536, and the response is that value's. -/
theorem respond_long {buf : List Byte} (h : 2 ≤ buf.length) :
    ∃ raw < 65536, raw16 buf = some raw ∧ respond (f buf) = value raw := by
  rcases raw16_cases buf with ⟨hshort, -⟩ | ⟨b0, b1, rest, -, hs, hlt⟩
  · omega
  · exact ⟨_, hlt, hs, by rw [hf.respond_eq, hs]; rfl⟩

/-- `rsp_err` is 0 on a buffer of two bytes or more. -/
theorem errFlag_respond_long {buf : List Byte} (h : 2 ≤ buf.length) : errFlag (respond (f buf)) = false := by
  obtain ⟨raw, -, -, hr⟩ := hf.respond_long h
  rw [hr, hf.no_error]

/-- Nothing is saturated, defaulted or coerced (R8): the response to a long enough buffer determines its first two
bytes. -/
theorem take_two_eq_of_respond_eq {buf buf' : List Byte} (h : 2 ≤ buf.length)
    (heq : respond (f buf') = respond (f buf)) : buf'.take 2 = buf.take 2 := by
  obtain ⟨raw, hlt, hs, hr⟩ := hf.respond_long h
  rcases Nat.lt_or_ge buf'.length 2 with hshort | hlong
  · have herr := hf.errFlag_respond_long h
    rw [← heq, hf.respond_short hshort] at herr
    cases herr
  · obtain ⟨raw', hlt', hs', hr'⟩ := hf.respond_long hlong
    have : raw' = raw := hf.injective _ _ hlt' hlt (hr' ▸ hr ▸ heq)
    exact take_two_eq_of_raw16_eq hs (this ▸ hs')

end DecodesRaw16

end Sys2Proof.Machine
end

section
/-! The statements about the contract of one request, settled. -/

namespace Sys2Proof.Machine

/-- Settles O28: an encode's fields are saturated operands; a decode is a length check and an injective reading of the
first two bytes. -/
theorem encodesSaturateAndDecodesFail : Obligations.EncodesSaturateAndDecodesFail := by
  refine ⟨fun x s => ?encodes, fun buf s f hmem => ?decodes⟩
  case encodes =>
    refine ⟨_, _, exec_eq _ s, exec_eq _ s, rfl, rfl, _, _, rfl, rfl, fun k => ?_⟩
    obtain ⟨v, hv, hsat⟩ := encodePayload_saturates (lim := speedLimit) (by decide) (by decide) x k
    obtain ⟨v', hv', hsat'⟩ := encodePayload_saturates (lim := pwmLimit) (by decide) (by decide) x k
    exact ⟨v, v', hv, hsat, hv', hsat'⟩
  case decodes =>
    obtain ⟨value, hf⟩ := decodesRaw16_of_mem hmem
    refine ⟨_, respond (f buf), exec_eq _ s, rfl, fun hshort => ?short, fun hlong => ?long⟩
    case short =>
      have hr := hf.respond_short hshort
      exact ⟨hr, by simp [hr, errFlag]⟩
    case long =>
      have herr := hf.errFlag_respond_long hlong
      refine ⟨fun hr => ?_, herr, fun buf' => hf.take_two_eq_of_respond_eq hlong⟩
      rw [hr] at herr
      cases herr

/-- Settles O29: the response is `respond` of the request, which takes no state. -/
theorem responseDependsOnTheRequestAlone : Obligations.ResponseDependsOnTheRequestAlone := fun i =>
  ⟨respond i, fun s => ⟨_, exec_eq i s, responsePorts_shows _ s.draws _, rfl⟩⟩

end Sys2Proof.Machine
end

section
/-! The 16-bit accesses of 20_memory.md R22, byte by byte: what a two-byte write leaves at each offset, and what a
two-byte read makes of the bytes it finds. -/

namespace Sys2Proof.Machine

/-- Two bytes, high byte first (R22). -/
theorem bigEndian_pair (b0 b1 : Byte) : bigEndian [b0, b1] = b0.toNat * 256 + b1.toNat := by
  simp [bigEndian]

/-- A two-byte read is decided by the bytes at its two offsets. -/
theorem memRead_two_of_getElem? {buf : List Byte} {off : Nat} {b0 b1 : Byte} (h0 : buf[off]? = some b0)
    (h1 : buf[off + 1]? = some b1) : memRead buf off 2 = some (bigEndian [b0, b1]) := by
  obtain ⟨hlt0, rfl⟩ := List.getElem?_eq_some_iff.mp h0
  obtain ⟨hlt1, rfl⟩ := List.getElem?_eq_some_iff.mp h1
  have hdrop : buf.drop off = buf[off] :: buf[off + 1] :: buf.drop (off + 2) := by
    rw [List.drop_eq_getElem_cons hlt0, List.drop_eq_getElem_cons hlt1]
  rw [memRead, if_pos (by omega), hdrop]
  rfl

/-- The bytes of a payload after a two-byte write. -/
theorem memWrite_two_toList (pay : Payload) (off v : Nat) :
    (memWrite pay off 2 v).toList =
      (pay.toList.set off (BitVec.ofNat 8 (v / 256))).set (off + 1) (BitVec.ofNat 8 v) := by
  rw [memWrite_two, Vector.toList_setIfInBounds, Vector.toList_setIfInBounds]

/-- The lower offset has the high byte. -/
theorem memWrite_two_getElem?_high (pay : Payload) {off : Nat} (h : off + 2 ≤ 8) (v : Nat) :
    (memWrite pay off 2 v).toList[off]? = some (BitVec.ofNat 8 (v / 256)) := by
  have hlt : off < pay.toList.length := by rw [Vector.length_toList]; omega
  rw [memWrite_two_toList, List.getElem?_set_ne (by omega), List.getElem?_set_self hlt]

/-- The next offset has the low byte. -/
theorem memWrite_two_getElem?_low (pay : Payload) {off : Nat} (h : off + 2 ≤ 8) (v : Nat) :
    (memWrite pay off 2 v).toList[off + 1]? = some (BitVec.ofNat 8 v) := by
  have hlt : off + 1 < (pay.toList.set off (BitVec.ofNat 8 (v / 256))).length := by
    rw [List.length_set, Vector.length_toList]; omega
  rw [memWrite_two_toList, List.getElem?_set_self hlt]

/-- The frame of a two-byte write: every other byte is unchanged. -/
theorem memWrite_two_getElem?_of_ne (pay : Payload) {off j : Nat} (v : Nat) (h0 : j ≠ off) (h1 : j ≠ off + 1) :
    (memWrite pay off 2 v).toList[j]? = pay.toList[j]? := by
  rw [memWrite_two_toList, List.getElem?_set_ne h1.symm, List.getElem?_set_ne h0.symm]

/-- A 16-bit number written within the payload is read back. -/
theorem memRead_memWrite_two (pay : Payload) {off u : Nat} (h : off + 2 ≤ 8) (hu : u < 65536) :
    memRead (memWrite pay off 2 u).toList off 2 = some u := by
  rw [memRead_two_of_getElem? (memWrite_two_getElem?_high pay h u) (memWrite_two_getElem?_low pay h u),
    bigEndian_word hu]

end Sys2Proof.Machine
end

section
/-! Running a list of presented requests (20_memory.md R29, 70_reset_and_hazards.md R93): the run records one exchange
for each, a function of that request's ports alone. -/

namespace Sys2Proof.Machine

/-- The instruction on the request ports, when a request is presented (`decode_eq_presentedInstr`). -/
def presentedInstr {c : PortWidths} (p : ReqPorts c) : Instr :=
  selectOperation p.op (channelOperands p) (readBuffer p)

/-- What serving a presented request records (`step_serves`): its instruction, with the response of that alone. -/
def servedExchange {c : PortWidths} (p : ReqPorts c) : Exchange :=
  { request := presentedInstr p, response := respond (presentedInstr p) }

theorem decode_eq_presentedInstr {c : PortWidths} {p : ReqPorts c} (h : p.valid = true) :
    decode p = .ok (presentedInstr p) :=
  decode_of_valid h

/-- A step with a request presented moves the caller on and records that request's exchange. -/
theorem step_serves {s : State} {p : ReqPorts Config.widths} {rest : List (ReqPorts Config.widths)}
    (hreq : s.requests = p :: rest) (hv : p.valid = true) :
    ∃ t, step s = .next t ∧ t.requests = rest ∧ t.history = s.history ++ [servedExchange p] := by
  refine ⟨respondWith (presentedInstr p) (respond (presentedInstr p)) (takeRequest s), ?_, ?_, rfl⟩
  · rw [step, presented_cons s p rest hreq, decode_eq_presentedInstr hv]
    exact exec_eq _ _
  · simp [hreq]

/-- One step for each of the requests `ps` at the head of the caller's list records their exchanges in order. -/
theorem run_serves (ps : List (ReqPorts Config.widths)) {rest : List (ReqPorts Config.widths)} {s : State}
    (hreq : s.requests = ps ++ rest) (hv : ∀ p ∈ ps, p.valid = true) :
    ∃ t, Sys2Proof.core.run ps.length s = .next t ∧ t.requests = rest ∧
      t.history = s.history ++ ps.map servedExchange := by
  induction ps generalizing s with
  | nil => exact ⟨s, rfl, hreq, by simp⟩
  | cons p ps ih =>
    obtain ⟨hp, hps⟩ := List.forall_mem_cons.mp hv
    obtain ⟨s', hstep, hreq', hhist'⟩ := step_serves hreq hp
    obtain ⟨t, hrun, hrest, hhist⟩ := ih hreq' hps
    exact ⟨t, (run_succ hstep ps.length).trans hrun, hrest, by simp [hhist, hhist']⟩

/-- The recorded requests are the presented ones as they decode. -/
theorem map_request_servedExchange {c : PortWidths} {ps : List (ReqPorts c)} (hv : ∀ p ∈ ps, p.valid = true) :
    (ps.map servedExchange).map (fun e => Except.ok e.request) = ps.map decode := by
  rw [List.map_map]
  exact List.map_congr_left fun p hp => (decode_eq_presentedInstr (hv p hp)).symm

/-- Each recorded response is the one its request has alone (R29). -/
theorem response_of_mem_map_servedExchange {c : PortWidths} {ps : List (ReqPorts c)} {e : Exchange}
    (he : e ∈ ps.map servedExchange) : e.response = respond e.request := by
  obtain ⟨p, -, rfl⟩ := List.mem_map.mp he
  rfl

end Sys2Proof.Machine
end

section
/-! The statements about memory and the order of requests, settled. -/

namespace Sys2Proof.Machine

/-- Settles O27: a two-byte write byte by byte, a two-byte read from its two bytes, and the fields and raw values made
of these accesses. -/
theorem sixteenBitQuantitiesAreBigEndian : Obligations.SixteenBitQuantitiesAreBigEndian := by
  refine ⟨fun pay off u hoff hu => ?write, fun b0 b1 pre rest => ?read, fun x s => ?encodes, fun b0 b1 rest => ?decodes⟩
  case write =>
    have hlow : BitVec.ofNat 8 (u % 256) = BitVec.ofNat 8 u := BitVec.eq_of_toNat_eq (by simp)
    exact ⟨memWrite_two_getElem?_high pay hoff u, hlow ▸ memWrite_two_getElem?_low pay hoff u,
      memRead_memWrite_two pay hoff hu, fun j => memWrite_two_getElem?_of_ne pay u⟩
  case read =>
    rw [memRead_two_of_getElem? (b0 := b0) (b1 := b1) (by simp) (by simp), bigEndian_pair]
  case encodes =>
    exact ⟨_, _, exec_eq _ s, exec_eq _ s, fun k =>
      ⟨memRead_encodePayload (lim := speedLimit) (by decide) (by decide) x k,
       memRead_encodePayload (lim := pwmLimit) (by decide) (by decide) x k⟩⟩
  case decodes =>
    exact ⟨respond_decodeBattery_cons b0 b1 rest, respond_decodeEncoder_cons b0 b1 rest⟩

/-- Settles O33: a run records the image of its requests under `servedExchange`, and the images of permuted lists are
permuted. -/
theorem requestsCommute : Obligations.RequestsCommute := by
  intro ps qs s u hperm hps hs hu
  have hqs : ∀ q ∈ qs, q.valid = true := fun q hq => hps q (hperm.mem_iff.mpr hq)
  obtain ⟨t, hrun, -, hhist⟩ := run_serves ps (hs.trans (List.append_nil ps).symm) hps
  obtain ⟨v, hrun', -, hhist'⟩ := run_serves qs (hu.trans (List.append_nil qs).symm) hqs
  exact ⟨t, v, ps.map servedExchange, qs.map servedExchange, hrun, hrun', hhist, hhist', hperm.map servedExchange,
    map_request_servedExchange hps, map_request_servedExchange hqs,
    fun _ => response_of_mem_map_servedExchange, fun _ => response_of_mem_map_servedExchange⟩

end Sys2Proof.Machine
end

section
/-! The payload of an encode as four fields of two bytes (40_encode.md R50, R53). -/

namespace Sys2Proof.Machine

/-- The field of one channel: the clamped operand as a 16-bit number, high byte first (R53). What an encode makes of it
is `encodePayload_toList_eq_fields`. -/
def clampedField (v lim : Int) : List Byte :=
  [BitVec.ofNat 8 (toU16 (clamp v (-lim) lim) / 256), BitVec.ofNat 8 (toU16 (clamp v (-lim) lim) % 256)]

/-- A byte takes a number modulo 256. -/
theorem byte_mod_256 (u : Nat) : BitVec.ofNat 8 (u % 256) = BitVec.ofNat 8 u :=
  BitVec.eq_of_toNat_eq (by simp)

/-- The payload is the fields of the four channels side by side, in channel order. -/
theorem encodePayload_toList_eq_fields (x : Lanes Int) (lim : Int) :
    (encodePayload x lim).toList =
      clampedField x.m1 lim ++ clampedField x.m2 lim ++ clampedField x.m3 lim ++ clampedField x.m4 lim := by
  rw [encodePayload_toList]
  simp only [clampedField, byte_mod_256, List.cons_append, List.nil_append]

/-- The two bytes of a channel's field, at offset ordinal x 2. -/
theorem encodePayload_getElem? (x : Lanes Int) (lim : Int) (k : MotorChannel) :
    (encodePayload x lim).toList[2 * channelOrdinal k]? =
        some (BitVec.ofNat 8 (toU16 (clamp (x.get k) (-lim) lim) / 256)) ∧
      (encodePayload x lim).toList[2 * channelOrdinal k + 1]? =
        some (BitVec.ofNat 8 (toU16 (clamp (x.get k) (-lim) lim) % 256)) := by
  rw [encodePayload_toList_eq_fields]
  cases k <;> exact ⟨rfl, rfl⟩

end Sys2Proof.Machine
end

section
/-! The statements about the encode family, settled. -/

namespace Sys2Proof.Machine

/-- Settles O12: `req_op` 0 selects ENCODE_SPEEDS, which responds with `encodePayload` of the bound 1000. -/
theorem encodeSpeedsWritesClampedFields : Obligations.EncodeSpeedsWritesClampedFields := by
  refine ⟨fun c p hvalid hop => ?decodes, fun x s => ?executes⟩
  case decodes =>
    rw [decode_of_valid hvalid, hop]
    rfl
  case executes =>
    exact ⟨_, _, exec_eq _ s, rfl, rfl, rfl, rfl, rfl, encodePayload_getElem? x speedLimit⟩

/-- Settles O13: `req_op` 1 selects ENCODE_PWM, which responds with `encodePayload` of the bound 3600. -/
theorem encodePwmWritesClampedFields : Obligations.EncodePwmWritesClampedFields := by
  refine ⟨fun c p hvalid hop => ?decodes, fun x s => ?executes⟩
  case decodes =>
    rw [decode_of_valid hvalid, hop]
    rfl
  case executes =>
    exact ⟨_, _, exec_eq _ s, rfl, rfl, rfl, rfl, rfl, encodePayload_getElem? x pwmLimit⟩

/-- Settles O14: the scalar function is `clampedField`. -/
theorem payloadIsFourIndependentFields : Obligations.PayloadIsFourIndependentFields :=
  ⟨clampedField, fun _ _ => rfl, fun x s =>
    ⟨_, _, exec_eq _ s, encodePayload_toList_eq_fields x speedLimit,
      exec_eq _ s, encodePayload_toList_eq_fields x pwmLimit⟩⟩

end Sys2Proof.Machine
end

section
/-! The sign of a raw value (41_decode.md R65): a 16-bit word as a number, its bit 15, and its two bytes. -/

namespace Sys2Proof.Machine

/-- Two bytes side by side are the word whose high byte is the first (20_memory.md R22). -/
theorem toNat_append_bytes (b0 b1 : Byte) : (b0 ++ b1).toNat = b0.toNat * 256 + b1.toNat := by
  rw [BitVec.toNat_append, ← Nat.shiftLeft_add_eq_or_of_lt b1.isLt, Nat.shiftLeft_eq]

/-- Bit 15 of a 16-bit word is its sign. -/
theorem msb_eq_bit15 (x : BitVec 16) : x.msb = decide (bitsOf x.toNat 15 15 = 1) := by
  have := x.isLt
  rw [BitVec.msb_eq_decide, decide_eq_decide, bitsOf]
  omega

/-- `s16` is the two's-complement reading of a 16-bit word (00_scope.md R19). -/
theorem s16_toNat (x : BitVec 16) : s16 x.toNat = x.toInt := by
  rw [s16_eq x.isLt, BitVec.toInt_eq_toNat_cond]
  split <;> split <;> omega

/-- A 16-bit word read as ticks and driven on a port of any width is its sign extension (30_encoding.md R42). -/
theorem ofInt_s16_toNat (w : Nat) (x : BitVec 16) : BitVec.ofInt w (s16 x.toNat) = x.signExtend w := by
  rw [s16_toNat, BitVec.signExtend]

/-- Bits 15 to 0 of a sign extension are the word itself. -/
theorem setWidth_signExtend_word {w : Nat} (hw : 16 ≤ w) (x : BitVec 16) : (x.signExtend w).setWidth 16 = x := by
  ext i hi
  have hiw : i < w := by omega
  rw [BitVec.getElem_setWidth, BitVec.getLsbD_signExtend, if_pos hi, decide_eq_true hiw, Bool.true_and,
    BitVec.getLsbD_eq_getElem hi]

/-- The same of the number on the port. -/
theorem signExtend_toNat_mod {w : Nat} (hw : 16 ≤ w) (x : BitVec 16) : (x.signExtend w).toNat % 65536 = x.toNat := by
  have h := congrArg BitVec.toNat (setWidth_signExtend_word hw x)
  rwa [BitVec.toNat_setWidth] at h

/-- Every bit of a sign extension above bit 15 is bit 15. -/
theorem signExtend_getLsbD_above {w n : Nat} (h16 : 16 ≤ n) (hn : n < w) (x : BitVec 16) :
    (x.signExtend w).getLsbD n = decide (bitsOf x.toNat 15 15 = 1) := by
  rw [BitVec.getLsbD_signExtend, if_neg (Nat.not_lt.mpr h16), msb_eq_bit15, decide_eq_true hn, Bool.true_and]

/-- Bits 15 to 8 of a raw value are its first byte. -/
theorem bitsOf_raw_high (b0 b1 : Byte) : BitVec.ofNat 8 (bitsOf (b0.toNat * 256 + b1.toNat) 15 8) = b0 := by
  refine BitVec.eq_of_toNat_eq ?_
  have := b0.isLt
  have := b1.isLt
  rw [BitVec.toNat_ofNat, bitsOf]
  omega

/-- Bits 7 to 0 of a raw value are its second byte. -/
theorem bitsOf_raw_low (b0 b1 : Byte) : BitVec.ofNat 8 (bitsOf (b0.toNat * 256 + b1.toNat) 7 0) = b1 := by
  refine BitVec.eq_of_toNat_eq ?_
  have := b1.isLt
  rw [BitVec.toNat_ofNat, bitsOf]
  omega

end Sys2Proof.Machine
end

section
/-! When a decode fails, and what it makes of the bytes after the first two (41_decode.md R61, R62). -/

namespace Sys2Proof.Machine

/-- `rsp_err` is 1 for ShortRead and for no other response (30_encoding.md R42). -/
theorem errFlag_eq_true_iff (r : Response) : errFlag r = true ↔ r = .shortRead := by
  cases r <;> simp [errFlag]

namespace DecodesRaw16

variable {f : List Byte → Instr} {value : Nat → Response} (hf : DecodesRaw16 f value)
include hf

/-- A decode fails exactly on a short buffer (R61). -/
theorem respond_eq_shortRead_iff (buf : List Byte) : respond (f buf) = .shortRead ↔ buf.length < 2 := by
  refine ⟨fun hr => ?_, hf.respond_short⟩
  by_contra hlong
  have herr := hf.errFlag_respond_long (Nat.not_lt.mp hlong)
  rw [hr] at herr
  cases herr

/-- The bytes after the first two do not change the response (R62). -/
theorem respond_append (b0 b1 : Byte) (rest : List Byte) :
    respond (f ([b0, b1] ++ rest)) = respond (f [b0, b1]) := by
  rw [hf.respond_eq, hf.respond_eq, List.cons_append, List.cons_append, raw16_cons, raw16_cons]

end DecodesRaw16

/-- The response of either decode to a long enough buffer is a voltage or a number of ticks. -/
theorem respond_decode_long {f : List Byte → Instr} (hf : f ∈ [Instr.decodeBattery, Instr.decodeEncoder])
    {buf : List Byte} (h : 2 ≤ buf.length) :
    (∃ raw, respond (f buf) = .volts raw) ∨ ∃ v, respond (f buf) = .ticks v := by
  simp only [List.mem_cons, List.not_mem_nil, or_false] at hf
  rcases hf with rfl | rfl
  · obtain ⟨raw, -, -, hr⟩ := decodeBattery_decodesRaw16.respond_long h
    exact .inl ⟨raw, hr⟩
  · obtain ⟨raw, -, -, hr⟩ := decodeEncoder_decodesRaw16.respond_long h
    exact .inr ⟨s16 raw, hr⟩

end Sys2Proof.Machine
end

section
/-! The statements about the decode family, settled. -/

namespace Sys2Proof.Machine

/-- Settles O20: the ticks are the two's-complement value of the word `b0 ++ b1`, and the port its sign extension. -/
theorem decodeEncoderRecoversSign : Obligations.DecodeEncoderRecoversSign := by
  refine ⟨fun c p hvalid hop => ?decodes, fun buf s => ?executes⟩
  case decodes =>
    rw [decode_of_valid hvalid, hop]
    rfl
  case executes =>
    refine ⟨_, respond (.decodeEncoder buf), exec_eq _ s, rfl, rfl, rfl, fun hshort => ?short,
      fun b0 b1 rest hbuf => ?long⟩
    case short =>
      have hr := respond_decodeEncoder_short hshort
      exact ⟨hr, (errFlag_eq_true_iff _).mpr hr⟩
    case long =>
      have hr : respond (.decodeEncoder buf) = .ticks (s16 (b0 ++ b1).toNat) := by
        rw [hbuf, respond_decodeEncoder_cons, toNat_append_bytes]
      have hport (c : PortWidths) (draw : Nat) :
          (responsePorts c draw (respond (.decodeEncoder buf))).ticks = (b0 ++ b1).signExtend c.outW := by
        rw [hr, responsePorts_ticks, ofInt_s16_toNat]
      refine ⟨(b0 ++ b1).toNat, toNat_append_bytes b0 b1, hr, ?noError, ?low, fun n h16 h32 => ?above,
        fun c draw _ => hport c draw⟩
      case noError => rw [respondWith_rsp, responsePorts_err, hr, errFlag]
      case low =>
        rw [respondWith_rsp, hport]
        exact signExtend_toNat_mod (by decide) (b0 ++ b1)
      case above =>
        rw [respondWith_rsp, hport]
        exact signExtend_getLsbD_above h16 h32 (b0 ++ b1)

/-- Settles O21: either decode fails exactly on a short buffer, and `rsp_err` tells the failure. -/
theorem shortReadExactlyWhenUnderTwoBytes : Obligations.ShortReadExactlyWhenUnderTwoBytes := by
  intro buf s f hmem
  obtain ⟨value, hf⟩ := decodesRaw16_of_mem hmem
  have hiff := hf.respond_eq_shortRead_iff buf
  exact ⟨_, respond (f buf), exec_eq _ s, rfl, hiff, (errFlag_eq_true_iff _).trans hiff, respond_decode_long hmem⟩

/-- Settles O22: both requests have the response to the first two bytes. -/
theorem trailingBytesAreIgnored : Obligations.TrailingBytesAreIgnored := by
  intro b0 b1 rest s f hmem
  obtain ⟨value, hf⟩ := decodesRaw16_of_mem hmem
  have hlonger : exec (f ([b0, b1] ++ rest)) s =
      .next (respondWith (f ([b0, b1] ++ rest)) (respond (f [b0, b1])) s) := by
    rw [exec_eq, hf.respond_append]
  exact ⟨_, _, respond (f [b0, b1]), exec_eq _ s, hlonger, rfl, rfl, responsePorts_shows _ _ _,
    responsePorts_shows _ _ _⟩

/-- Settles O23: a buffer that is not short begins with two bytes, whose word is the raw value of both decodes. -/
theorem bothDecodesShareOneFrontEnd : Obligations.BothDecodesShareOneFrontEnd := by
  refine fun buf => ⟨fun hshort => ⟨respond_decodeBattery_short hshort, respond_decodeEncoder_short hshort⟩,
    fun hlong => ?_⟩
  rcases raw16_cases buf with ⟨hshort, -⟩ | ⟨b0, b1, rest, rfl, -, hlt⟩
  · omega
  · exact ⟨_, Nat.le_of_lt_succ hlt, memRead_two b0 b1 rest, congrArg some (bitsOf_raw_high b0 b1).symm,
      congrArg some (bitsOf_raw_low b0 b1).symm, respond_decodeBattery_cons b0 b1 rest,
      respond_decodeEncoder_cons b0 b1 rest⟩

end Sys2Proof.Machine
end

section
/-! From an instruction to the request ports and back (30_encoding.md R36, R37, R41): the select, the channel lanes and
the buffer, each said once. -/

namespace Sys2Proof

/-! ## The select -/

/-- The operation table of R37, row by row. -/
theorem selectOperation_cases (op : BitVec 2) :
    (op = 0#2 ∧ selectOperation op = fun x _ => .encodeSpeeds x) ∨
    (op = 1#2 ∧ selectOperation op = fun x _ => .encodePwm x) ∨
    (op = 2#2 ∧ selectOperation op = fun _ buf => .decodeBattery buf) ∨
    (op = 3#2 ∧ selectOperation op = fun _ buf => .decodeEncoder buf) := by
  have hop : op = 0#2 ∨ op = 1#2 ∨ op = 2#2 ∨ op = 3#2 := by
    revert op
    decide
  rcases hop with rfl | rfl | rfl | rfl
  · exact .inl ⟨rfl, rfl⟩
  · exact .inr (.inl ⟨rfl, rfl⟩)
  · exact .inr (.inr (.inl ⟨rfl, rfl⟩))
  · exact .inr (.inr (.inr ⟨rfl, rfl⟩))

/-- The selected operation has the select it was chosen by. -/
@[simp] theorem opcode_selectOperation (op : BitVec 2) (x : Lanes Int) (buf : List Byte) :
    (selectOperation op x buf).opcode = op := by
  rcases selectOperation_cases op with ⟨rfl, h⟩ | ⟨rfl, h⟩ | ⟨rfl, h⟩ | ⟨rfl, h⟩ <;> rw [h] <;> rfl

/-- An instruction is what its own select, channels and buffer stand for. -/
@[simp] theorem selectOperation_opcode (i : Instr) : selectOperation i.opcode i.channels i.buffer = i := by
  cases i <;> rfl

/-- Format E reads the channel lanes (R35). -/
theorem channels_selectOperation {op : BitVec 2} {x : Lanes Int} {buf : List Byte}
    (h : (selectOperation op x buf).format = .formatE) : (selectOperation op x buf).channels = x := by
  rcases selectOperation_cases op with ⟨-, hs⟩ | ⟨-, hs⟩ | ⟨-, hs⟩ | ⟨-, hs⟩ <;> rw [hs] at h ⊢
  · rfl
  · rfl
  · cases h
  · cases h

/-- Format D reads the buffer (R35). -/
theorem buffer_selectOperation {op : BitVec 2} {x : Lanes Int} {buf : List Byte}
    (h : (selectOperation op x buf).format = .formatD) : (selectOperation op x buf).buffer = buf := by
  rcases selectOperation_cases op with ⟨-, hs⟩ | ⟨-, hs⟩ | ⟨-, hs⟩ | ⟨-, hs⟩ <;> rw [hs] at h ⊢
  · cases h
  · cases h
  · rfl
  · rfl

/-- With bit 1 of the select clear the operation is an encode, and does not read the buffer (R37, R39). -/
theorem selectOperation_ignores_buffer {op : BitVec 2} (h : op.getLsbD 1 = false) (x : Lanes Int)
    (buf buf' : List Byte) : selectOperation op x buf = selectOperation op x buf' := by
  rcases selectOperation_cases op with ⟨rfl, hs⟩ | ⟨rfl, hs⟩ | ⟨rfl, -⟩ | ⟨rfl, -⟩
  · rw [hs]
  · rw [hs]
  · exact absurd h (by decide)
  · exact absurd h (by decide)

/-- With bit 1 of the select set the operation is one of the two decodes, and does not read the lanes (R37, R39). -/
theorem selectOperation_decodes {op : BitVec 2} (h : op.getLsbD 1 = true) :
    ∃ f ∈ [Instr.decodeBattery, Instr.decodeEncoder], ∀ x buf, selectOperation op x buf = f buf := by
  rcases selectOperation_cases op with ⟨rfl, -⟩ | ⟨rfl, -⟩ | ⟨rfl, hs⟩ | ⟨rfl, hs⟩
  · exact absurd h (by decide)
  · exact absurd h (by decide)
  · exact ⟨.decodeBattery, by simp, fun _ _ => by rw [hs]⟩
  · exact ⟨.decodeEncoder, by simp, fun _ _ => by rw [hs]⟩

/-! ## The channel lanes -/

theorem fitsSigned_zero (w : Nat) : fitsSigned w 0 = true := by
  have : (0 : Int) < 2 ^ w := by positivity
  simp only [fitsSigned, Bool.and_eq_true, decide_eq_true_eq]
  omega

theorem operandsFit_iff {w : Nat} {x : Lanes Int} :
    operandsFit w x = true ↔
      fitsSigned w x.m1 = true ∧ fitsSigned w x.m2 = true ∧ fitsSigned w x.m3 = true ∧ fitsSigned w x.m4 = true := by
  simp only [operandsFit, Bool.and_eq_true, and_assoc]

/-- Well-formedness is about the channels and the buffer an instruction is presented with. -/
theorem wellFormed_iff {c : PortWidths} {i : Instr} :
    i.wellFormed c = true ↔ operandsFit c.inW i.channels = true ∧ i.buffer.length ≤ c.bufMax := by
  have hzero : operandsFit c.inW (Lanes.same 0) = true := by
    simp only [operandsFit_iff, Lanes.same, fitsSigned_zero, and_self]
  cases i with
  | encodeSpeeds x => simp [Instr.wellFormed, Instr.channels, Instr.buffer]
  | encodePwm x => simp [Instr.wellFormed, Instr.channels, Instr.buffer]
  | decodeBattery buf => simp [Instr.wellFormed, Instr.channels, Instr.buffer, bufferFits, hzero]
  | decodeEncoder buf => simp [Instr.wellFormed, Instr.channels, Instr.buffer, bufferFits, hzero]

/-- Lanes that carry operands that fit them give these back. -/
theorem map_toInt_map_ofInt {w : Nat} {x : Lanes Int} (h : operandsFit w x = true) :
    (x.map (BitVec.ofInt w)).map BitVec.toInt = x := by
  obtain ⟨h1, h2, h3, h4⟩ := operandsFit_iff.mp h
  simp only [Lanes.map, toInt_ofInt_of_fits h1, toInt_ofInt_of_fits h2, toInt_ofInt_of_fits h3,
    toInt_ofInt_of_fits h4]

theorem map_ofInt_map_toInt {w : Nat} (x : Lanes (BitVec w)) : (x.map BitVec.toInt).map (BitVec.ofInt w) = x := by
  simp only [Lanes.map, BitVec.ofInt_toInt]

theorem operandsFit_channelOperands {c : PortWidths} (p : ReqPorts c) :
    operandsFit c.inW (channelOperands p) = true := by
  simp only [operandsFit_iff, channelOperands, Lanes.map, fits_toInt, and_self]

theorem channelOperands_encode {c : PortWidths} {i : Instr} (h : operandsFit c.inW i.channels = true) :
    channelOperands (encode c i) = i.channels :=
  map_toInt_map_ofInt h

/-! ## The buffer -/

/-- The lanes carry as much of a buffer as there are lanes, whatever the length port can say (R41). -/
theorem readBuffer_encode {c : PortWidths} (hc : c.Legal) (i : Instr) :
    readBuffer (encode c i) = i.buffer.take c.bufMax := by
  obtain ⟨-, -, -, hlen⟩ := hc
  have hread : readBuffer (encode c i) =
      (bufferLanes c.bufMax i.buffer).toList.take (min i.buffer.length (2 ^ c.lenW - 1)) := by
    rw [readBuffer, encode, lengthPort_toNat]
  rcases Nat.le_total i.buffer.length c.bufMax with hle | hge
  · rw [hread, Nat.min_eq_left (by omega), bufferLanes_take _ _ _ (by omega), List.take_length,
      List.take_of_length_le hle]
  · have hall : (bufferLanes c.bufMax i.buffer).toList.length = c.bufMax := Vector.length_toList
    rw [hread, List.take_of_length_le (by omega), ← bufferLanes_take c.bufMax c.bufMax _ (by omega),
      List.take_of_length_le hall.le]

/-- The lanes hold the bytes of the buffer, index by index. -/
theorem bufferLanes_getElem? {n j : Nat} {buf : List Byte} (hn : j < n) (hj : j < buf.length) :
    (bufferLanes n buf)[j]? = buf[j]? := by
  have htake := bufferLanes_take n (j + 1) buf (by omega)
  rw [← Vector.getElem?_toList, ← List.getElem?_take_of_lt (Nat.lt_succ_self j), htake,
    List.getElem?_take_of_lt (Nat.lt_succ_self j)]

/-- The decoded buffer holds the bytes on the lanes, index by index. -/
theorem readBuffer_getElem? {c : PortWidths} {p : ReqPorts c} {j : Nat} (hj : j < p.len.toNat) :
    (readBuffer p)[j]? = p.buf[j]? := by
  rw [readBuffer, List.getElem?_take_of_lt hj, Vector.getElem?_toList]

/-! ## A whole request -/

/-- What an encoded request decodes to: the buffer is cut to the lanes, and nothing else is lost. -/
theorem decode_encode {c : PortWidths} (hc : c.Legal) {i : Instr} (hfit : operandsFit c.inW i.channels = true) :
    decode (encode c i) = .ok (selectOperation i.opcode i.channels (i.buffer.take c.bufMax)) := by
  rw [decode_of_valid (show (encode c i).valid = true from rfl), channelOperands_encode hfit, readBuffer_encode hc]
  rfl

/-- A well-formed request is read back whole. -/
theorem decode_encode_of_wellFormed {c : PortWidths} (hc : c.Legal) {i : Instr} (hwf : i.wellFormed c = true) :
    decode (encode c i) = .ok i := by
  obtain ⟨hfit, hbuf⟩ := wellFormed_iff.mp hwf
  rw [decode_encode hc hfit, List.take_of_length_le hbuf, selectOperation_opcode]

/-- What decodes is well formed. -/
theorem wellFormed_of_decode {c : PortWidths} {p : ReqPorts c} {i : Instr} (h : decode p = .ok i) :
    i.wellFormed c = true := by
  obtain ⟨-, rfl⟩ := decode_eq_ok h
  have hfit := operandsFit_channelOperands p
  have hbuf : (readBuffer p).length ≤ c.bufMax := by rw [readBuffer_length]; exact Nat.min_le_right _ _
  rcases selectOperation_cases p.op with ⟨-, hs⟩ | ⟨-, hs⟩ | ⟨-, hs⟩ | ⟨-, hs⟩ <;> rw [hs]
  · exact hfit
  · exact hfit
  · exact decide_eq_true hbuf
  · exact decide_eq_true hbuf

end Sys2Proof

namespace Sys2Proof.Machine

/-! ## The response and the bytes it rests on -/

/-- The raw value rests on the first two bytes (41_decode.md R60, R62). -/
theorem raw16_take {n : Nat} (hn : 2 ≤ n) (buf : List Byte) : raw16 (buf.take n) = raw16 buf := by
  obtain ⟨m, rfl⟩ := Nat.exists_eq_add_of_le' hn
  match buf with
  | [] => rfl
  | [_] => rfl
  | b0 :: b1 :: rest => rw [List.take_succ_cons, List.take_succ_cons, raw16_cons, raw16_cons]

theorem DecodesRaw16.respond_take {f : List Byte → Instr} {value : Nat → Response} (hf : DecodesRaw16 f value) {n : Nat}
    (hn : 2 ≤ n) (buf : List Byte) : respond (f (buf.take n)) = respond (f buf) := by
  rw [hf.respond_eq, hf.respond_eq, raw16_take hn]

/-- Cutting a buffer to two or more lanes does not change the response (30_encoding.md R41). -/
theorem respond_take_buffer {n : Nat} (hn : 2 ≤ n) (i : Instr) :
    respond (selectOperation i.opcode i.channels (i.buffer.take n)) = respond i := by
  cases i with
  | encodeSpeeds x => rfl
  | encodePwm x => rfl
  | decodeBattery buf => exact decodeBattery_decodesRaw16.respond_take hn buf
  | decodeEncoder buf => exact decodeEncoder_decodesRaw16.respond_take hn buf

/-- The raw value rests on whether the length is below two and, if not, on lanes 0 and 1 (30_encoding.md R39). -/
theorem raw16_readBuffer_congr {c : PortWidths} {p q : ReqPorts c} (hlen : p.len.toNat < 2 ↔ q.len.toNat < 2)
    (hbuf : 2 ≤ p.len.toNat → p.buf[0]? = q.buf[0]? ∧ p.buf[1]? = q.buf[1]?) :
    raw16 (readBuffer p) = raw16 (readBuffer q) := by
  rcases Nat.lt_or_ge p.len.toNat 2 with hshort | hlong
  · have hshort' := hlen.mp hshort
    rw [raw16_short (by rw [readBuffer_length]; omega), raw16_short (by rw [readBuffer_length]; omega)]
  · obtain ⟨h0, h1⟩ := hbuf hlong
    have hfirst : (readBuffer p).take 2 = (readBuffer q).take 2 := by
      refine List.ext_getElem? fun j => ?_
      match j with
      | 0 => rw [List.getElem?_take_of_lt (by omega), List.getElem?_take_of_lt (by omega),
          readBuffer_getElem? (by omega), readBuffer_getElem? (by omega), h0]
      | 1 => rw [List.getElem?_take_of_lt (by omega), List.getElem?_take_of_lt (by omega),
          readBuffer_getElem? (by omega), readBuffer_getElem? (by omega), h1]
      | j + 2 => rw [List.getElem?_take_eq_none (by omega), List.getElem?_take_eq_none (by omega)]
    rw [← raw16_take (Nat.le_refl 2), hfirst, raw16_take (Nat.le_refl 2)]

end Sys2Proof.Machine
end

section
/-! The statements about the request ports, settled. -/

namespace Sys2Proof.Machine

/-- Settles O7: the ports carry each operand of a well-formed instruction. -/
theorem decodeOfEncodeIsIdentity : Obligations.DecodeOfEncodeIsIdentity :=
  fun _ _ hc hwf => decode_encode_of_wellFormed hc hwf

/-- Settles O8: a decoded instruction holds the signed lanes, or the bytes on the lanes below the length. -/
theorem encodeOfDecodeKeepsReadFields : Obligations.EncodeOfDecodeKeepsReadFields := by
  intro c p i hc hdec
  refine ⟨wellFormed_of_decode hdec, ?_⟩
  obtain ⟨-, -, -, hlen⟩ := hc
  obtain ⟨hvalid, rfl⟩ := decode_eq_ok hdec
  refine ⟨hvalid.symm, opcode_selectOperation _ _ _, fun hE => ?channels, fun hD => ⟨?length, fun j hj => ?byte⟩⟩
  case channels => rw [encode, channels_selectOperation hE, channelOperands, map_ofInt_map_toInt]
  case length =>
    rw [encode, lengthPort_toNat, buffer_selectOperation hD, readBuffer_length]
    omega
  case byte =>
    rw [encode, buffer_selectOperation hD, bufferLanes_getElem? (by omega) (by rw [readBuffer_length]; exact hj),
      readBuffer_getElem? (by omega)]

/-- Settles O9: the instruction decoded has the buffer cut to the lanes, of which there are at least two. -/
theorem anyBufferCanBePresented : Obligations.AnyBufferCanBePresented := by
  intro c i hc hfit
  have ⟨_, _, hlanes, _⟩ := hc
  exact ⟨_, decode_encode hc hfit, opcode_selectOperation _ _ _, respond_take_buffer hlanes i⟩

/-- Settles O10: an encode is a function of the lanes, a decode of the raw value of the buffer. -/
theorem ignoredFieldsDoNotMatter : Obligations.IgnoredFieldsDoNotMatter := by
  intro c p q _ hp hq hop hE hD
  refine ⟨_, _, decode_of_valid hp, decode_of_valid hq, ?_⟩
  rw [← hop]
  cases hbit : p.op.getLsbD 1 with
  | false =>
    have hch : channelOperands p = channelOperands q := congrArg (Lanes.map BitVec.toInt) (hE hbit)
    rw [hch, selectOperation_ignores_buffer hbit _ _ (readBuffer q)]
  | true =>
    obtain ⟨hlen, hbuf⟩ := hD hbit
    obtain ⟨f, hf, hsel⟩ := selectOperation_decodes hbit
    obtain ⟨value, hraw⟩ := decodesRaw16_of_mem hf
    rw [hsel, hsel, hraw.respond_eq, hraw.respond_eq, raw16_readBuffer_congr hlen hbuf]

end Sys2Proof.Machine
end

section
/-! The whole machine: the invariant each step keeps (10_state.md R13, R15), the two kinds of step (30_encoding.md R40),
and runs of programs (70_reset_and_hazards.md R93). -/

namespace Sys2Proof.Machine

/-! ## The invariant -/

/-- Every response is in its domain (10_state.md R15). -/
theorem respond_inDomain (i : Instr) : (respond i).InDomain := by
  cases i with
  | encodeSpeeds x => trivial
  | encodePwm x => trivial
  | decodeBattery buf =>
    rcases raw16_cases buf with ⟨hshort, -⟩ | ⟨b0, b1, rest, rfl, -, hlt⟩
    · rw [respond_decodeBattery_short hshort]
      trivial
    · rw [respond_decodeBattery_cons]
      exact hlt
  | decodeEncoder buf =>
    rcases raw16_cases buf with ⟨hshort, -⟩ | ⟨b0, b1, rest, rfl, -, hlt⟩
    · rw [respond_decodeEncoder_short hshort]
      trivial
    · rw [respond_decodeEncoder_cons]
      exact s16_mem hlt

/-- Serving a request adds a right exchange and shows it. -/
theorem State.Inv.respondWith {s : State} (h : s.Inv) (i : Instr) : (respondWith i (respond i) s).Inv where
  faithful e he := by
    rw [respondWith_history, List.mem_append, List.mem_singleton] at he
    rcases he with he | rfl
    · exact h.faithful e he
    · exact ⟨rfl, respond_inDomain i⟩
  showing _ := ⟨_, List.getLast?_concat, responsePorts_shows _ _ _⟩

/-- An idle step records nothing and shows nothing. -/
theorem State.Inv.idle {s : State} (h : s.Inv) : (idle s).Inv where
  faithful := h.faithful
  showing hvalid := by
    rw [idle_rsp, quietPorts_valid] at hvalid
    cases hvalid

/-- The invariant does not speak of the requests still to come. -/
theorem State.Inv.takeRequest {s : State} (h : s.Inv) : (takeRequest s).Inv := ⟨h.faithful, h.showing⟩

/-! ## The two kinds of step -/

/-- The caller moves on past a request at the head of its list. -/
theorem takeRequest_of_cons {s : State} {p : ReqPorts Config.widths} {rest : List (ReqPorts Config.widths)}
    (h : s.requests = p :: rest) : takeRequest s = { s with requests := rest } := by
  rw [takeRequest, h, List.tail_cons]

/-- A step runs the instruction on the ports. -/
theorem step_of_decode {s : State} {i : Instr} (h : decode (presented s) = .ok i) :
    step s = exec i (takeRequest s) := by
  rw [step, h]

theorem step_of_not_valid {s : State} (h : (presented s).valid = false) : step s = .next (idle (takeRequest s)) := by
  rw [step, decode_of_not_valid h]

/-- A presented request is the head of the caller's list. -/
theorem requests_of_valid {s : State} (h : (presented s).valid = true) :
    ∃ rest, s.requests = presented s :: rest := by
  cases hreq : s.requests with
  | nil =>
    rw [presented_nil s hreq] at h
    cases h
  | cons p rest => exact ⟨rest, by rw [presented_cons s p rest hreq]⟩

/-- No request is presented when the caller's list is over or its head has `req_valid` 0. -/
theorem not_valid_of_requests {s : State}
    (h : s.requests = [] ∨ ∃ p rest, s.requests = p :: rest ∧ p.valid = false) : (presented s).valid = false := by
  rcases h with hnil | ⟨p, rest, hcons, hp⟩
  · rw [presented_nil s hnil]
    rfl
  · rw [presented_cons s p rest hcons, hp]

/-- An opcode-table word decodes as the request it stands for. -/
theorem decode_tableRequest {nbits w : Nat} {i : Instr} (h : decodeTableWord nbits w = some i) :
    decode (tableRequest Config.widths w) = .ok i := by
  unfold decodeTableWord at h
  split at h
  · next j hj => rw [hj, Option.some.inj h]
  · cases h

/-! ## Programs -/

/-- A well-formed instruction is presented as itself. -/
theorem presentedInstr_encode {c : PortWidths} (hc : c.Legal) {i : Instr} (hwf : i.wellFormed c = true) :
    presentedInstr (encode c i) = i :=
  Except.ok.inj ((decode_eq_presentedInstr rfl).symm.trans (decode_encode_of_wellFormed hc hwf))

/-- The exchanges of a program hold its responses. -/
theorem map_response_servedExchange {c : PortWidths} (hc : c.Legal) {prog : List Instr}
    (hwf : ∀ i ∈ prog, i.wellFormed c = true) :
    ((prog.map (encode c)).map servedExchange).map Exchange.response = runProgram prog := by
  rw [List.map_map, List.map_map]
  exact List.map_congr_left fun i hi => congrArg respond (presentedInstr_encode hc (hwf i hi))

/-- Exchanges added to the record add their responses. -/
theorem responses_of_history {s t : State} {es : List Exchange} (h : t.history = s.history ++ es) :
    responses t = responses s ++ es.map Exchange.response := by
  rw [responses, h, List.map_append, responses]

/-- A program at the head of the caller's list, run one step for each request, adds its responses to the record. -/
theorem run_program {prog : List Instr} {rest : List (ReqPorts Config.widths)} {s : State}
    (hreq : s.requests = prog.map (encode Config.widths) ++ rest)
    (hwf : ∀ i ∈ prog, i.wellFormed Config.widths = true) :
    ∃ t, Sys2Proof.core.run prog.length s = .next t ∧ t.requests = rest ∧
      responses t = responses s ++ runProgram prog := by
  have hvalid : ∀ p ∈ prog.map (encode Config.widths), p.valid = true := by
    intro p hp
    obtain ⟨i, -, rfl⟩ := List.mem_map.mp hp
    rfl
  obtain ⟨t, hrun, hrest, hhist⟩ := run_serves _ hreq hvalid
  rw [List.length_map] at hrun
  refine ⟨t, hrun, hrest, (responses_of_history hhist).trans ?_⟩
  rw [map_response_servedExchange (by decide) hwf]

end Sys2Proof.Machine
end

section
/-! The statements about the whole machine, settled. -/

namespace Sys2Proof.Machine

/-- Settles O32: either kind of step keeps the invariant. -/
theorem stepKeepsInvariant : Obligations.StepKeepsInvariant := by
  intro s t hinv hstep
  rcases step_cases s with ⟨i, -, hserve⟩ | ⟨-, hidle⟩
  · cases hserve.symm.trans hstep
    exact hinv.takeRequest.respondWith i
  · cases hidle.symm.trans hstep
    exact hinv.takeRequest.idle

/-- Settles O30: an operation adds its exchange at the end of the record. -/
theorem operationsChangeOnlyTheirResponse : Obligations.OperationsChangeOnlyTheirResponse := fun i s =>
  ⟨_, respond i, exec_eq i s, rfl, rfl, List.take_left, List.length_append⟩

/-- Settles O31: the two kinds of step. -/
theorem oneResponseForEachRequest : Obligations.OneResponseForEachRequest := by
  intro s
  rcases step_cases s with ⟨i, hdec, hserve⟩ | ⟨hv, hidle⟩
  · obtain ⟨hvalid, -⟩ := decode_eq_ok hdec
    obtain ⟨rest, hreq⟩ := requests_of_valid hvalid
    exact ⟨_, hserve, rfl,
      .inr ⟨presented s, rest, i, respond i, hreq, hvalid, hdec, rfl, responsePorts_shows _ _ _⟩⟩
  · exact ⟨_, hidle, rfl, .inl ⟨rfl, rfl, fun p rest hreq => presented_cons s p rest hreq ▸ hv⟩⟩

/-- Settles O34: the program is run, and then its continuation. -/
theorem programRunGivesItsResponses : Obligations.ProgramRunGivesItsResponses := by
  intro prog more s hwf hreq
  obtain ⟨hprog, hmore⟩ := List.forall_mem_append.mp hwf
  rw [List.map_append] at hreq
  obtain ⟨t, hrun, ht, hresp⟩ := run_program hreq hprog
  obtain ⟨v, hrun', hv, hresp'⟩ := run_program (ht.trans (List.append_nil _).symm) hmore
  refine ⟨t, v, hrun, hrun', hresp, ?_, hv⟩
  rw [hresp', hresp, List.append_assoc, runProgram, runProgram, runProgram, List.map_append]

/-- Settles O1: the reset state is written out in `State.reset`. -/
theorem resetPresentsNoResponse : Obligations.ResetPresentsNoResponse := ⟨rfl, rfl, rfl⟩

/-- Settles O2: nothing is recorded at reset and `rsp_valid` is 0. -/
theorem resetMeetsInvariant : Obligations.ResetMeetsInvariant where
  faithful _ he := by cases he
  showing hvalid := by cases hvalid

/-- Settles O3: each port setting is a closed term and decodes by computation. -/
theorem writtenOutRequestsDecode : Obligations.WrittenOutRequestsDecode := by
  unfold Obligations.WrittenOutRequestsDecode
  decide

/-- Settles O4: the head of the caller's list stands on the ports. -/
theorem stepRunsThePresentedRequest : Obligations.StepRunsThePresentedRequest := by
  intro s p rest i hreq hdec
  rw [step_of_decode ((presented_cons s p rest hreq).symm ▸ hdec), takeRequest_of_cons hreq]

/-- Settles O5: the table word's request is the head of the list, and the caller's own list comes after it. -/
theorem fetchWordRunsNext : Obligations.FetchWordRunsNext := fun s nbits w _ hword =>
  step_of_decode (s := s.withFetchWord nbits w) (decode_tableRequest hword)

/-- Settles O6: the step is idle. -/
theorem idleStepGivesNoResponse : Obligations.IdleStepGivesNoResponse := fun _ hreq =>
  ⟨_, step_of_not_valid (not_valid_of_requests hreq), rfl, rfl, rfl⟩

end Sys2Proof.Machine
end

section
/-! What an encode makes of one operand (40_encode.md R54 to R56): the clamped operand, its 16-bit form, and the payload
as a whole. -/

namespace Sys2Proof.Machine

/-! ## The clamped operand -/

/-- No number of the range is nearer than the clamped one (R54 c). -/
theorem clamp_nearest {lo hi y : Int} (hlo : lo ≤ y) (hhi : y ≤ hi) (v : Int) : |clamp v lo hi - v| ≤ |y - v| := by
  unfold clamp
  split
  · rw [abs_of_nonneg (by omega), abs_of_nonneg (by omega)]
    omega
  · split
    · rw [abs_of_nonpos (by omega), abs_of_nonpos (by omega)]
      omega
    · rw [Int.sub_self, abs_zero]
      exact abs_nonneg _

/-- Clamping to a range around zero keeps the sign (R54 e). -/
theorem clamp_neg_iff {lo hi : Int} (hlo : lo < 0) (hhi : 0 ≤ hi) (v : Int) : clamp v lo hi < 0 ↔ v < 0 := by
  rw [clamp_eq_max_min (by omega)]
  omega

/-- Clamping to a range around zero sends nothing else to zero. -/
theorem clamp_eq_zero_iff {lo hi : Int} (hlo : lo < 0) (hhi : 0 < hi) (v : Int) : clamp v lo hi = 0 ↔ v = 0 := by
  rw [clamp_eq_max_min (by omega)]
  omega

/-! ## The 16-bit form -/

/-- The two bytes of a 16-bit number combine to it again (20_memory.md R22). -/
theorem toNat_bytes_of_word {u : Nat} (h : u < 65536) :
    (BitVec.ofNat 8 (u / 256)).toNat * 256 + (BitVec.ofNat 8 (u % 256)).toNat = u := by
  rw [← bigEndian_pair, byte_mod_256, bigEndian_word h]

/-- Bit 15 of the two's-complement form is the sign. -/
theorem bit15_toU16 {c : Int} (hl : -32768 ≤ c) (hh : c ≤ 32767) : bitsOf (toU16 c) 15 15 = 1 ↔ c < 0 := by
  rcases lt_or_ge c 0 with h | h
  · rw [toU16_of_neg h, bitsOf]
    omega
  · rw [toU16_of_nonneg h, bitsOf]
    omega

/-- The 16-bit forms of a range around zero (R56). -/
theorem toU16_range {c lim : Int} (hl : -lim ≤ c) (hh : c ≤ lim) (hlim : lim ≤ 32767) :
    (toU16 c : Int) ≤ lim ∨ 65536 - lim ≤ toU16 c ∧ toU16 c ≤ 65535 := by
  rcases lt_or_ge c 0 with h | h
  · rw [toU16_of_neg h]
    omega
  · rw [toU16_of_nonneg h]
    omega

/-! ## The payload -/

/-- Two commands with the same operand for every channel are the same. -/
theorem lanes_ext {α : Type} {x y : Lanes α} (h : ∀ k, x.get k = y.get k) : x = y := by
  cases x
  cases y
  exact Lanes.mk.injEq .. ▸ ⟨h .m1, h .m2, h .m3, h .m4⟩

/-- Clamping a command before it is encoded changes nothing (R55 d). -/
theorem encodePayload_clampedCommand {lim : Int} (h : 0 ≤ lim) (x : Lanes Int) :
    encodePayload (clampedCommand x lim) lim = encodePayload x lim := by
  have hidem (v : Int) : clamp (clamp v (-lim) lim) (-lim) lim = clamp v (-lim) lim := by
    obtain ⟨hl, hh⟩ := clamp_mem (show -lim ≤ lim by omega) v
    exact clamp_of_mem hl hh
  have hcmd : clampedCommand (clampedCommand x lim) lim = clampedCommand x lim := by
    simp only [clampedCommand, Lanes.map, hidem]
  rw [encodePayload, hcmd, encodePayload]

/-- An operation on a command is the encode procedure of 40_encode.md R50 with the bound `lim`. -/
structure EncodesClamped (f : Lanes Int → Instr) (lim : Int) : Prop where
  respond_eq : ∀ x, respond (f x) = .payload (encodePayload x lim)
  pos        : 0 < lim
  le         : lim ≤ 32767

theorem encodeSpeeds_encodesClamped : EncodesClamped .encodeSpeeds 1000 where
  respond_eq _ := rfl
  pos := by decide
  le := by decide

theorem encodePwm_encodesClamped : EncodesClamped .encodePwm 3600 where
  respond_eq _ := rfl
  pos := by decide
  le := by decide

/-- The two encode operations with their bounds, in the form statements list them in. -/
theorem encodesClamped_of_mem {q : (Lanes Int → Instr) × Int}
    (hq : q ∈ [(Instr.encodeSpeeds, (1000 : Int)), (Instr.encodePwm, 3600)]) : EncodesClamped q.1 q.2 := by
  simp only [List.mem_cons, List.not_mem_nil, or_false] at hq
  rcases hq with rfl | rfl
  · exact encodeSpeeds_encodesClamped
  · exact encodePwm_encodesClamped

namespace EncodesClamped

variable {f : Lanes Int → Instr} {lim : Int} (hf : EncodesClamped f lim)
include hf

/-- An encode completes with its payload on `rsp_pay`. -/
theorem exec_payload (x : Lanes Int) (s : State) : ∃ t, exec (f x) s = .next t ∧ t.rsp.pay = encodePayload x lim :=
  ⟨_, exec_eq _ s, by rw [respondWith_rsp, hf.respond_eq, responsePorts_pay]⟩

/-- The clamped operand is in the range of a signed 16-bit number. -/
theorem clamp_range (v : Int) :
    (-lim ≤ clamp v (-lim) lim ∧ clamp v (-lim) lim ≤ lim) ∧
      -32768 ≤ clamp v (-lim) lim ∧ clamp v (-lim) lim ≤ 32767 := by
  have hpos := hf.pos
  have hle := hf.le
  obtain ⟨hl, hh⟩ := clamp_mem (show -lim ≤ lim by omega) v
  omega

/-- The field of a channel. -/
theorem memRead_field (x : Lanes Int) (k : MotorChannel) :
    memRead (encodePayload x lim).toList (2 * channelOrdinal k) 2 = some (toU16 (clamp (x.get k) (-lim) lim)) :=
  memRead_encodePayload hf.pos.le hf.le x k

/-- The field of a channel as a signed number. -/
theorem s16_field (v : Int) : s16 (toU16 (clamp v (-lim) lim)) = clamp v (-lim) lim := by
  obtain ⟨-, hl, hh⟩ := hf.clamp_range v
  exact s16_toU16 hl hh

/-- A payload of zeros comes from the all-zero command alone (70_reset_and_hazards.md R89). -/
theorem eq_zero_of_payload {x : Lanes Int} (h : encodePayload x lim = #v[0, 0, 0, 0, 0, 0, 0, 0]) :
    x = Lanes.same 0 := by
  refine lanes_ext fun k => ?_
  have hzero : memRead (#v[0, 0, 0, 0, 0, 0, 0, 0] : Payload).toList (2 * channelOrdinal k) 2 = some 0 := by
    cases k <;> rfl
  have hfield : toU16 (clamp (x.get k) (-lim) lim) = 0 :=
    Option.some.inj ((hf.memRead_field x k).symm.trans (h ▸ hzero))
  have hclamp : clamp (x.get k) (-lim) lim = 0 := by
    rw [← hf.s16_field, hfield]
    rfl
  have hget : (Lanes.same (0 : Int)).get k = 0 := by cases k <;> rfl
  rw [hget, ← clamp_eq_zero_iff (neg_lt_zero.mpr hf.pos) hf.pos]
  exact hclamp

end EncodesClamped

end Sys2Proof.Machine
end

section
/-! The statements about the values an encode produces, settled. -/

namespace Sys2Proof.Machine

/-- Settles O15: the field is the 16-bit form of the clamped operand, and clamping is idempotent. -/
theorem encodeThenDecodeReturnsClampedValue : Obligations.EncodeThenDecodeReturnsClampedValue := by
  intro x s q hq
  have hf := encodesClamped_of_mem hq
  obtain ⟨t, hexec, hpay⟩ := hf.exec_payload x s
  obtain ⟨t', hexec', hpay'⟩ := hf.exec_payload (clampedCommand x q.2) s
  refine ⟨t, hexec, fun k => ?field, t', hexec', ?again⟩
  case field =>
    obtain ⟨hhigh, hlow⟩ := encodePayload_getElem? x q.2 k
    obtain ⟨-, hl, hh⟩ := hf.clamp_range (x.get k)
    have hword := toNat_bytes_of_word (toU16_lt hl hh)
    have hvalue := hf.s16_field (x.get k)
    rw [hpay]
    refine ⟨_, _, hhigh, hlow, by rw [hword, hvalue], fun rest => ?_⟩
    rw [respond_decodeEncoder_cons, hword, hvalue]
  case again => rw [hpay', hpay, encodePayload_clampedCommand hf.pos.le]

/-- Settles O16: the field, read as a signed number, is the clamped operand. -/
theorem encodedFieldIsNearestInRange : Obligations.EncodedFieldIsNearestInRange := by
  intro x s q hq
  have hf := encodesClamped_of_mem hq
  obtain ⟨t, hexec, hpay⟩ := hf.exec_payload x s
  refine ⟨t, hexec, fun k => ⟨_, hpay ▸ hf.memRead_field x k, ?_⟩⟩
  obtain ⟨⟨hlo, hhi⟩, hl, hh⟩ := hf.clamp_range (x.get k)
  rw [hf.s16_field]
  exact ⟨hlo, hhi, fun y hy hy' => clamp_nearest hy hy' _,
    (bit15_toU16 hl hh).trans (clamp_neg_iff (neg_lt_zero.mpr hf.pos) hf.pos.le _)⟩

/-- Settles O17: a field is the 16-bit form of a number in the range. -/
theorem encodedFieldValues : Obligations.EncodedFieldValues := by
  intro x s
  have hspeeds := encodeSpeeds_encodesClamped
  have hpwm := encodePwm_encodesClamped
  obtain ⟨t, hexec, hpay⟩ := hspeeds.exec_payload x s
  obtain ⟨t', hexec', hpay'⟩ := hpwm.exec_payload x s
  refine ⟨t, t', hexec, hexec', fun k =>
    ⟨_, _, hpay ▸ hspeeds.memRead_field x k, ?speeds, hpay' ▸ hpwm.memRead_field x k, ?pwm⟩⟩
  case speeds =>
    obtain ⟨⟨hl, hh⟩, -⟩ := hspeeds.clamp_range (x.get k)
    have := toU16_range hl hh hspeeds.le
    omega
  case pwm =>
    obtain ⟨⟨hl, hh⟩, -⟩ := hpwm.clamp_range (x.get k)
    have := toU16_range hl hh hpwm.le
    omega

/-- Settles O18: the payload of the all-zero command is computed, and each field determines whether its operand is
zero. -/
theorem onlyAnAllZeroCommandStops : Obligations.OnlyAnAllZeroCommandStops := by
  refine ⟨fun s => ⟨_, _, exec_eq _ s, ?speeds, exec_eq _ s, ?pwm⟩, fun x s => ?only⟩
  case speeds =>
    change encodePayload (Lanes.same 0) speedLimit = _
    decide
  case pwm =>
    change encodePayload (Lanes.same 0) pwmLimit = _
    decide
  case only =>
    obtain ⟨t, hexec, hpay⟩ := encodeSpeeds_encodesClamped.exec_payload x s
    obtain ⟨u, hexec', hpay'⟩ := encodePwm_encodesClamped.exec_payload x s
    exact ⟨t, u, hexec, hexec',
      fun h => congrArg Instr.encodeSpeeds (encodeSpeeds_encodesClamped.eq_zero_of_payload (hpay.symm.trans h)),
      fun h => congrArg Instr.encodePwm (encodePwm_encodesClamped.eq_zero_of_payload (hpay'.symm.trans h))⟩

end Sys2Proof.Machine
end

section
/-! Formats (30_encoding.md R35), readings (41_decode.md R63, R67), and the caller's transport (70_reset_and_hazards.md
R87 to R90). -/

namespace Sys2Proof.Machine

/-! ## Formats and readings -/

/-- `rsp_err` is 1 exactly in format X (30_encoding.md R40). -/
theorem errFlag_eq_true_iff_formatX (r : Response) : errFlag r = true ↔ responseFormat r = .formatX := by
  cases r <;> simp [errFlag, responseFormat]

theorem responseFormat_decodeBattery (buf : List Byte) :
    responseFormat (respond (.decodeBattery buf)) = if buf.length < 2 then .formatX else .formatV := by
  split
  · next hshort => rw [respond_decodeBattery_short hshort, responseFormat]
  · next hlong =>
    obtain ⟨raw, -, -, hr⟩ := decodeBattery_decodesRaw16.respond_long (Nat.not_lt.mp hlong)
    rw [hr, responseFormat]

theorem responseFormat_decodeEncoder (buf : List Byte) :
    responseFormat (respond (.decodeEncoder buf)) = if buf.length < 2 then .formatX else .formatT := by
  split
  · next hshort => rw [respond_decodeEncoder_short hshort, responseFormat]
  · next hlong =>
    obtain ⟨raw, -, -, hr⟩ := decodeEncoder_decodesRaw16.respond_long (Nat.not_lt.mp hlong)
    rw [hr, responseFormat]

/-- A decode never gives a payload. -/
theorem respond_decode_ne_payload {f : List Byte → Instr} (hf : f ∈ [Instr.decodeBattery, Instr.decodeEncoder])
    (buf : List Byte) (pay : Payload) : respond (f buf) ≠ .payload pay := by
  intro h
  rcases Nat.lt_or_ge buf.length 2 with hshort | hlong
  · obtain ⟨value, hraw⟩ := decodesRaw16_of_mem hf
    rw [hraw.respond_short hshort] at h
    cases h
  · rcases respond_decode_long hf hlong with ⟨raw, hr⟩ | ⟨v, hr⟩
    · cases hr.symm.trans h
    · cases hr.symm.trans h

/-- A reading is a tenth of its raw value (41_decode.md R63). -/
theorem batteryReading_eq (raw : Nat) : batteryReading raw = (raw : Rat) / 10 := rfl

theorem batteryReading_nonneg (raw : Nat) : 0 ≤ batteryReading raw := by
  rw [batteryReading_eq]
  positivity

/-- From bit 15 on, a raw value stands for a negative number of ticks (41_decode.md R65). -/
theorem s16_neg {u : Nat} (hl : 32768 ≤ u) (hh : u < 65536) : s16 u < 0 := by
  rw [s16_eq hh, if_neg (Nat.not_lt.mpr hl)]
  omega

/-! ## The caller and the transport -/

/-- The register an encode writes is its own, takes eight bytes, and bounds the fields as the encode does (10_state.md
R17). -/
structure TakesCommands (reg : BoardRegister) (lim : Int) : Prop where
  access       : reg.access = .writeOnly
  payloadBytes : reg.payloadBytes = some payloadLen
  fieldBound   : reg.fieldBound = some lim

/-- A payload written as R88 asks fits its register. -/
theorem payloadWrite_fits {f : Lanes Int → Instr} {lim : Int} (hf : EncodesClamped f lim) {x : Lanes Int}
    (hreg : TakesCommands (targetRegister (f x)) lim) {call : TransportCall}
    (hw : PayloadWrite { request := f x, response := respond (f x) } call) :
    call.Permitted ∧ ∃ (reg : BoardRegister) (data : List Byte) (result : Except TransportError Unit) (bound : Int),
      reg = targetRegister (f x) ∧ reg.access = .writeOnly ∧ call = .write reg.offset data result ∧
      (∀ other, PayloadWrite { request := f x, response := respond (f x) } (.write reg.offset data other)) ∧
      reg.payloadBytes = some data.length ∧ reg.fieldBound = some bound ∧
      ∀ k : MotorChannel, ∃ u : Nat, memRead data (channelOffset k) 2 = some u ∧ -bound ≤ s16 u ∧ s16 u ≤ bound := by
  obtain ⟨pay, result, hpay, rfl⟩ := hw
  obtain rfl : encodePayload x lim = pay := Response.payload.inj ((hf.respond_eq x).symm.trans hpay)
  refine ⟨permitted_of_access rfl hreg.access, _, _, result, lim, rfl, hreg.access, rfl,
    fun other => ⟨_, other, hpay, rfl⟩, ?length, hreg.fieldBound, fun k => ?field⟩
  case length => rw [hreg.payloadBytes, Vector.length_toList, payloadLen, nCh, fieldBytes]
  case field =>
    obtain ⟨hrange, -⟩ := hf.clamp_range (x.get k)
    refine ⟨_, ?_, (hf.s16_field (x.get k)).symm ▸ hrange⟩
    rw [channelOffset, fieldBytes, Nat.mul_comm, hf.memRead_field]

/-- The register a decode reads is readable (10_state.md R17). -/
theorem targetRegister_decode_access {f : List Byte → Instr} (hf : f ∈ [Instr.decodeBattery, Instr.decodeEncoder])
    (buf : List Byte) : (targetRegister (f buf)).access = .readOnly := by
  simp only [List.mem_cons, List.not_mem_nil, or_false] at hf
  rcases hf with rfl | rfl
  · rfl
  · rfl

/-- A serialised trace, read from its front, is whole transactions (20_memory.md R30). -/
theorem calls_of_serialised : ∀ {trace : List BusEvent}, serialised none trace = true →
    ∃ calls : List Nat, trace = calls.flatMap (fun n => [BusEvent.begins n, BusEvent.completes n])
  | [], _ => ⟨[], rfl⟩
  | .begins n :: .completes m :: rest, h => by
    simp only [serialised, Option.isNone_none, Bool.true_and, Bool.and_eq_true, decide_eq_true_eq,
      Option.some.injEq] at h
    obtain ⟨rfl, hrest⟩ := h
    obtain ⟨calls, rfl⟩ := calls_of_serialised hrest
    exact ⟨n :: calls, rfl⟩
  | [.begins _], h => by cases h
  | .begins _ :: .begins _ :: _, h => by cases h
  | .completes _ :: _, h => by cases h

/-- Whole transactions one after another are serialised. -/
theorem serialised_flatMap (calls : List Nat) :
    serialised none (calls.flatMap (fun n => [BusEvent.begins n, BusEvent.completes n])) = true := by
  induction calls with
  | nil => rfl
  | cons n calls ih => simpa [serialised] using ih

end Sys2Proof.Machine
end

section
/-! The statements about responses and the caller's duties, settled. -/

namespace Sys2Proof.Machine

/-- Settles O19: the response is the raw value of the buffer, of which the reading is a tenth. -/
theorem decodeBatteryReadsUnsignedTenths : Obligations.DecodeBatteryReadsUnsignedTenths := by
  refine ⟨fun c p hvalid hop => ?decodes, fun buf s => ?executes⟩
  case decodes =>
    rw [decode_of_valid hvalid, hop]
    rfl
  case executes =>
    refine ⟨_, respond (.decodeBattery buf), exec_eq _ s, rfl, rfl, rfl, fun hshort => ?short,
      fun b0 b1 rest hbuf => ?long⟩
    case short =>
      have hr := respond_decodeBattery_short hshort
      exact ⟨hr, (errFlag_eq_true_iff _).mpr hr⟩
    case long =>
      have hr : respond (.decodeBattery buf) = .volts (b0.toNat * 256 + b1.toNat) := by
        rw [hbuf, respond_decodeBattery_cons]
      refine ⟨hr, ?noError, ?pattern, ?tenth⟩
      case noError => rw [respondWith_rsp, responsePorts_err, hr, errFlag]
      case pattern => rw [respondWith_rsp, hr, responsePorts_volts, voltsPattern, battDiv]
      case tenth =>
        rw [batteryReading_eq, div_mul_cancel₀ _ (by norm_num)]
        push_cast
        rfl

/-- Settles O24: both decodes of one buffer rest on its one raw value. -/
theorem twoDecodesOfOneBuffer : Obligations.TwoDecodesOfOneBuffer := by
  intro buf
  refine ⟨(decodeBattery_decodesRaw16.respond_eq_shortRead_iff buf).trans
    (decodeEncoder_decodesRaw16.respond_eq_shortRead_iff buf).symm, fun raw v hvolts hticks => ?_⟩
  rcases raw16_cases buf with ⟨hshort, -⟩ | ⟨b0, b1, rest, rfl, -, hlt⟩
  · rw [respond_decodeBattery_short hshort] at hvolts
    cases hvolts
  · rw [respond_decodeBattery_cons] at hvolts
    rw [respond_decodeEncoder_cons, Response.volts.inj hvolts] at hticks
    rw [Response.volts.inj hvolts] at hlt
    obtain rfl := Response.ticks.inj hticks
    refine ⟨fun hlow => ?low, fun hhigh => ⟨s16_neg hhigh hlt, batteryReading_nonneg raw⟩⟩
    case low =>
      have hs : s16 raw = raw := by rw [s16_eq hlt, if_pos hlow]
      exact ⟨hs, by rw [hs, batteryReading_eq, Int.cast_natCast]⟩

/-- Settles O36: each operation's response has the format listed for it, and `rsp_err` tells format X. -/
theorem responseFormatOfEachOperation : Obligations.ResponseFormatOfEachOperation := by
  intro x buf s q hq
  have hformat : responseFormat (respond q.1) = q.2 := by
    simp only [List.mem_cons, List.not_mem_nil, or_false] at hq
    rcases hq with rfl | rfl | rfl | rfl
    · rfl
    · rfl
    · exact responseFormat_decodeBattery buf
    · exact responseFormat_decodeEncoder buf
  exact ⟨_, respond q.1, exec_eq _ s, rfl, hformat, rfl, hformat ▸ errFlag_eq_true_iff_formatX _⟩

/-- Settles O35: the operation has a payload only if it is an encode, and an encode's payload fits its register. -/
theorem contractedWriteFitsItsRegister : Obligations.ContractedWriteFitsItsRegister := by
  refine fun i s => ⟨_, exec_eq i s, fun e call hlast hw => ?_⟩
  obtain rfl : { request := i, response := respond i } = e :=
    Option.some.inj (List.getLast?_concat.symm.trans hlast)
  cases i with
  | encodeSpeeds x => exact payloadWrite_fits encodeSpeeds_encodesClamped ⟨rfl, rfl, rfl⟩ hw
  | encodePwm x => exact payloadWrite_fits encodePwm_encodesClamped ⟨rfl, rfl, rfl⟩ hw
  | decodeBattery buf =>
    obtain ⟨pay, -, hpay, -⟩ := hw
    exact absurd hpay (respond_decode_ne_payload (f := .decodeBattery) (by simp) buf pay)
  | decodeEncoder buf =>
    obtain ⟨pay, -, hpay, -⟩ := hw
    exact absurd hpay (respond_decode_ne_payload (f := .decodeEncoder) (by simp) buf pay)

/-- Settles O37: the request is one of the two decodes, of the bytes read. -/
theorem contractedReadIsDecoded : Obligations.ContractedReadIsDecoded := by
  rintro call i s ⟨length, got, rfl, hi⟩
  obtain ⟨f, hf, rfl⟩ : ∃ f ∈ [Instr.decodeBattery, Instr.decodeEncoder], i = f got := by simpa using hi
  obtain ⟨value, hraw⟩ := decodesRaw16_of_mem hf
  have haccess := targetRegister_decode_access hf got
  have hok : ¬ TransportCall.Failed (.read (targetRegister (f got)).offset length (.ok got)) := by
    intro hfailed
    cases hfailed
  exact ⟨permitted_of_access rfl haccess, hok, _, _, length, got, respond (f got), rfl, haccess, rfl,
    exec_eq _ s, rfl, respond_decode_ne_payload hf got, hraw.respond_eq_shortRead_iff got⟩

/-- Settles O38: whole transactions are serialised, and nothing else is. -/
theorem serialisedTracesHaveNoOverlap : Obligations.SerialisedTracesHaveNoOverlap := by
  refine fun trace => ⟨calls_of_serialised, ?_⟩
  rintro ⟨calls, rfl⟩
  exact serialised_flatMap calls

end Sys2Proof.Machine
end

section
/-! The binary64 pattern of a battery reading (41_decode.md R64): its shift and significand, its fields and value, and
how near it is. Lengths are measured in tenths of the last place, so that the raw value becomes the natural number
`raw * 2 ^ shift`. -/

namespace Sys2Proof.Machine

/-! ## The shift and the significand -/

/-- The power of two that a raw value is scaled with; `voltsPattern_eq` ties it to the pattern. -/
def voltsShift (raw : Nat) : Nat := significandShift raw battDiv

/-- The significand of the pattern of a raw value. -/
def voltsSignificand (raw : Nat) : Nat := roundHalfEven (raw * 2 ^ voltsShift raw) battDiv

/-- The number the pattern of a raw value stands for (`binary64Value_voltsPattern`). -/
def voltsValue (raw : Nat) : Rat := (voltsSignificand raw : Rat) / 2 ^ voltsShift raw

/-- The shift is the first guess or the number after it. -/
theorem voltsShift_eq (raw : Nat) :
    voltsShift raw =
      if 10 * 2 ^ 52 ≤ raw * 2 ^ (55 - raw.log2) then 55 - raw.log2 else 55 - raw.log2 + 1 := by
  have hlog : battDiv.log2 = 3 := by decide
  have hle (a : Nat) : 2 ^ 52 ≤ a / battDiv ↔ 10 * 2 ^ 52 ≤ a := by
    rw [Nat.le_div_iff_mul_le (by decide), battDiv, Nat.mul_comm]
  simp only [voltsShift, significandShift, hlog, hle]

theorem voltsShift_mem {raw : Nat} (h : raw < 65536) : 40 ≤ voltsShift raw ∧ voltsShift raw ≤ 56 := by
  have hlog : raw.log2 ≤ 15 := by
    rcases Nat.eq_zero_or_pos raw with rfl | hpos
    · decide
    · exact Nat.le_of_lt_succ ((Nat.log2_lt hpos.ne').mpr h)
  rw [voltsShift_eq]
  split <;> omega

/-- The scaled quotient lies where the significands are. -/
theorem scaled_mem {raw : Nat} (hpos : 0 < raw) (h : raw < 65536) :
    10 * 2 ^ 52 ≤ raw * 2 ^ voltsShift raw ∧ raw * 2 ^ voltsShift raw < 10 * 2 ^ 53 := by
  have hlog : raw.log2 < 16 := (Nat.log2_lt hpos.ne').mpr h
  have hlow : 2 ^ 55 ≤ raw * 2 ^ (55 - raw.log2) := by
    calc 2 ^ 55 = 2 ^ raw.log2 * 2 ^ (55 - raw.log2) := by rw [← Nat.pow_add]; congr 1; omega
      _ ≤ _ := Nat.mul_le_mul_right _ (Nat.log2_self_le hpos.ne')
  have hhigh : raw * 2 ^ (55 - raw.log2) < 2 ^ 56 := by
    calc raw * 2 ^ (55 - raw.log2) < 2 ^ (raw.log2 + 1) * 2 ^ (55 - raw.log2) :=
          Nat.mul_lt_mul_of_pos_right Nat.lt_log2_self (Nat.two_pow_pos _)
      _ = 2 ^ 56 := by rw [← Nat.pow_add]; congr 1; omega
  rw [voltsShift_eq]
  split
  · omega
  · rw [pow_succ 2 (55 - raw.log2), ← Nat.mul_assoc]
    omega

/-- The scaled raw value is a multiple of 2^40. -/
theorem exists_scaled_eq {raw : Nat} (h : raw < 65536) : ∃ a, raw * 2 ^ voltsShift raw = a * 2 ^ 40 := by
  obtain ⟨hk, -⟩ := voltsShift_mem h
  obtain ⟨j, hj⟩ := Nat.exists_eq_add_of_le' hk
  exact ⟨raw * 2 ^ j, by rw [hj, Nat.pow_add, Nat.mul_assoc]⟩

/-- Rounding is off by less than half a place: a raw value is never midway between two significands. -/
theorem voltsSignificand_error {raw : Nat} (h : raw < 65536) :
    10 * voltsSignificand raw ≤ raw * 2 ^ voltsShift raw + 4 ∧
      raw * 2 ^ voltsShift raw ≤ 10 * voltsSignificand raw + 4 := by
  obtain ⟨a, ha⟩ := exists_scaled_eq h
  have herr := roundHalfEven_error (raw * 2 ^ voltsShift raw) battDiv (by decide)
  rw [← voltsSignificand, battDiv] at herr
  omega

/-- A significand has 53 bits: rounding never carries into the next binade. -/
theorem voltsSignificand_mem {raw : Nat} (hpos : 0 < raw) (h : raw < 65536) :
    2 ^ 52 ≤ voltsSignificand raw ∧ voltsSignificand raw < 2 ^ 53 := by
  obtain ⟨a, ha⟩ := exists_scaled_eq h
  obtain ⟨hlow, hhigh⟩ := scaled_mem hpos h
  have herr := voltsSignificand_error h
  omega

/-- The significand is the scaled quotient itself exactly for multiples of five. -/
theorem voltsSignificand_exact_iff {raw : Nat} (h : raw < 65536) :
    10 * voltsSignificand raw = raw * 2 ^ voltsShift raw ↔ 5 ∣ raw := by
  constructor
  · intro heq
    have hdvd : 5 ∣ raw * 2 ^ voltsShift raw := by
      rw [← heq]
      exact dvd_mul_of_dvd_left (by decide) _
    have hcop : Nat.Coprime 5 (2 ^ voltsShift raw) := Nat.Coprime.pow_right _ (by decide)
    exact hcop.dvd_of_dvd_mul_right hdvd
  · intro h5
    obtain ⟨hk, -⟩ := voltsShift_mem h
    have h2 : 2 ∣ 2 ^ voltsShift raw := dvd_pow_self 2 (by omega)
    have hdvd : 10 ∣ raw * 2 ^ voltsShift raw := mul_dvd_mul h5 h2
    rw [voltsSignificand, battDiv, roundHalfEven_of_dvd (by decide) hdvd, Nat.mul_div_cancel' hdvd]

/-! ## The fields of the pattern and its value -/

theorem voltsPattern_zero : voltsPattern 0 = 0#64 := rfl

theorem voltsPattern_eq {raw : Nat} (hpos : 0 < raw) :
    voltsPattern raw =
      BitVec.ofNat 64 ((1075 - voltsShift raw) * 2 ^ 52 + (voltsSignificand raw - 2 ^ 52)) := by
  rw [voltsPattern, f64, if_neg hpos.ne', voltsSignificand, voltsShift]

/-- Sign, exponent and fraction of the pattern of a raw value that is not zero. -/
theorem voltsPattern_fields {raw : Nat} (hpos : 0 < raw) (h : raw < 65536) :
    bitsOf (voltsPattern raw).toNat 63 63 = 0 ∧
      bitsOf (voltsPattern raw).toNat 62 52 = 1075 - voltsShift raw ∧
      bitsOf (voltsPattern raw).toNat 51 0 = voltsSignificand raw - 2 ^ 52 := by
  have hk := voltsShift_mem h
  have hm := voltsSignificand_mem hpos h
  rw [voltsPattern_eq hpos, BitVec.toNat_ofNat]
  unfold bitsOf
  omega

theorem binary64Value_zero : binary64Value 0#64 = some 0 := by
  have hfields : bitsOf (0#64).toNat 62 52 = 0 ∧ bitsOf (0#64).toNat 51 0 = 0 := by decide
  simp only [binary64Value, hfields]
  norm_num

theorem binary64Value_voltsPattern {raw : Nat} (h : raw < 65536) :
    binary64Value (voltsPattern raw) = some (voltsValue raw) := by
  rcases Nat.eq_zero_or_pos raw with rfl | hpos
  · have hm : voltsSignificand 0 = 0 := by
      have := voltsSignificand_error h
      omega
    rw [voltsPattern_zero, binary64Value_zero, voltsValue, hm, Nat.cast_zero, zero_div]
  · obtain ⟨hsign, hexp, hfrac⟩ := voltsPattern_fields hpos h
    obtain ⟨hk, hk'⟩ := voltsShift_mem h
    obtain ⟨hm, -⟩ := voltsSignificand_mem hpos h
    have hpow : ((1075 - voltsShift raw : Nat) : Int) - 1075 = -(voltsShift raw : Int) := by omega
    have hnormal : 1075 - voltsShift raw ≠ 2047 ∧ 1075 - voltsShift raw ≠ 0 := by omega
    simp only [binary64Value, hsign, hexp, hfrac, if_neg hnormal.1, if_neg hnormal.2,
      Nat.add_sub_cancel' hm, hpow]
    rw [if_neg (by decide), one_mul, zpow_neg, zpow_natCast, voltsValue, div_eq_mul_inv]

/-- The value is the reading exactly for multiples of five (R64 c). -/
theorem voltsValue_eq_reading_iff {raw : Nat} (h : raw < 65536) : voltsValue raw = batteryReading raw ↔ 5 ∣ raw := by
  rw [← voltsSignificand_exact_iff h, voltsValue, batteryReading_eq, div_eq_div_iff (by positivity) (by norm_num)]
  norm_cast
  rw [Nat.mul_comm]

/-- The pattern is +0 exactly for the raw value 0, and otherwise normal and positive (R64 c). -/
theorem voltsPattern_class {raw : Nat} (h : raw < 65536) :
    bitsOf (voltsPattern raw).toNat 63 63 = 0 ∧ bitsOf (voltsPattern raw).toNat 62 52 ≠ 2047 ∧
      (bitsOf (voltsPattern raw).toNat 62 52 = 0 → voltsPattern raw = 0#64) ∧ (voltsPattern raw = 0#64 ↔ raw = 0) := by
  rcases Nat.eq_zero_or_pos raw with rfl | hpos
  · rw [voltsPattern_zero]
    decide
  · obtain ⟨hsign, hexp, -⟩ := voltsPattern_fields hpos h
    obtain ⟨hk, hk'⟩ := voltsShift_mem h
    have hne : voltsPattern raw ≠ 0#64 := by
      intro hzero
      rw [hzero, show bitsOf (0#64).toNat 62 52 = 0 by decide] at hexp
      omega
    exact ⟨hsign, by omega, fun hsub => by omega, iff_of_false hne hpos.ne'⟩

/-! ## The distance to a reading -/

/-- A binary64 number is an integer below 2^53 times a power of two. -/
theorem exists_of_binary64Value {b : BitVec 64} {w : Rat} (h : binary64Value b = some w) :
    ∃ m x : Int, m < 2 ^ 53 ∧ w = m * 2 ^ x := by
  have hfrac : bitsOf b.toNat 51 0 < 2 ^ 52 := Nat.mod_lt _ (by decide)
  obtain ⟨s, hs, hsign⟩ : ∃ s : Int, (s = 1 ∨ s = -1) ∧
      (if bitsOf b.toNat 63 63 = 1 then (-1 : Rat) else 1) = s := by
    split
    · exact ⟨-1, .inr rfl, by norm_num⟩
    · exact ⟨1, .inl rfl, by norm_num⟩
  simp only [binary64Value, hsign] at h
  split at h
  · cases h
  · split at h
    · refine ⟨s * bitsOf b.toNat 51 0, -1074, ?_, ?_⟩
      · rcases hs with rfl | rfl <;> omega
      · rw [← Option.some.inj h, Int.cast_mul, Int.cast_natCast]
    · refine ⟨s * (2 ^ 52 + bitsOf b.toNat 51 0 : Nat), bitsOf b.toNat 62 52 - 1075, ?_, ?_⟩
      · rcases hs with rfl | rfl <;> omega
      · rw [← Option.some.inj h, Int.cast_mul, Int.cast_natCast]

/-- Seen from the binade of significands with shift `k`, a binary64 number is a whole number of places, or lies below
the binade. -/
theorem binary64Value_scaled {b : BitVec 64} {w : Rat} (h : binary64Value b = some w) (k : Nat) :
    w * 2 ^ k < 2 ^ 52 ∨ ∃ j : Int, w * 2 ^ k = j := by
  obtain ⟨m, x, hm, rfl⟩ := exists_of_binary64Value h
  have hscale : (m : Rat) * 2 ^ x * 2 ^ k = m * 2 ^ (x + k) := by
    rw [zpow_add₀ (by norm_num), zpow_natCast, mul_assoc]
  rw [hscale]
  rcases lt_or_ge (x + k) 0 with hneg | hnonneg
  · have hm' : (m : Rat) < 2 ^ 53 := by exact_mod_cast hm
    have hhalf : (2 : Rat) ^ (x + k) ≤ 2 ^ (-1 : Int) := zpow_le_zpow_right₀ (by norm_num) (by omega)
    have hpos : (0 : Rat) < 2 ^ (x + k) := by positivity
    left
    calc (m : Rat) * 2 ^ (x + k) < 2 ^ 53 * 2 ^ (x + k) := mul_lt_mul_of_pos_right hm' hpos
      _ ≤ 2 ^ 53 * 2 ^ (-1 : Int) := mul_le_mul_of_nonneg_left hhalf (by norm_num)
      _ = 2 ^ 52 := by norm_num
  · obtain ⟨n, hn⟩ := Int.eq_ofNat_of_zero_le hnonneg
    right
    exact ⟨m * 2 ^ n, by rw [hn, zpow_natCast]; push_cast; rfl⟩

/-- A significand with an error of at most four tenths of a place is nearer than any other whole number. -/
theorem significand_nearest_int {t m : Nat} (herr : 10 * m ≤ t + 4 ∧ t ≤ 10 * m + 4) {j : Int} (hne : j ≠ m) :
    |10 * (m : Int) - t| < |10 * j - t| := by
  have hnear : |10 * (m : Int) - t| ≤ 4 := abs_le.mpr (by omega)
  have hfar : 6 ≤ |10 * j - (t : Int)| := le_abs.mpr (by omega)
  omega

/-- It is nearer than any number below the binade too, because the binade begins with a whole number. -/
theorem significand_nearest {t m : Nat} (herr : 10 * m ≤ t + 4 ∧ t ≤ 10 * m + 4) (ht : 10 * 2 ^ 52 ≤ t) {y : Rat}
    (hy : y < 2 ^ 52 ∨ ∃ j : Int, y = j) (hne : y ≠ m) : |10 * (m : Rat) - t| < |10 * y - t| := by
  rcases hy with hlow | ⟨j, rfl⟩
  · have ht' : (10 * 2 ^ 52 : Rat) ≤ t := by exact_mod_cast ht
    have hfirst : |10 * (m : Rat) - t| ≤ t - 10 * 2 ^ 52 := by
      have : |10 * (m : Int) - t| ≤ t - 10 * 2 ^ 52 := abs_le.mpr (by omega)
      exact_mod_cast this
    have hfar : (t : Rat) - 10 * 2 ^ 52 < |10 * y - t| := by
      rw [abs_of_neg (by linarith)]
      linarith
    exact hfirst.trans_lt hfar
  · exact_mod_cast significand_nearest_int herr (by exact_mod_cast hne)

/-- The distance to a reading in tenths of a place. -/
theorem scaled_distance (raw k : Nat) (a : Rat) :
    |10 * (a * 2 ^ k) - ((raw * 2 ^ k : Nat) : Rat)| = 10 * 2 ^ k * |a - batteryReading raw| := by
  have hfactor : 10 * (a * 2 ^ k) - ((raw * 2 ^ k : Nat) : Rat) = 10 * 2 ^ k * (a - batteryReading raw) := by
    rw [batteryReading_eq]
    push_cast
    ring
  rw [hfactor, abs_mul, abs_of_pos (by positivity)]

/-- Every other binary64 number is farther from the reading (R64 b). -/
theorem voltsValue_nearest {raw : Nat} (h : raw < 65536) {b : BitVec 64} {w : Rat} (hw : binary64Value b = some w)
    (hne : w ≠ voltsValue raw) : |voltsValue raw - batteryReading raw| < |w - batteryReading raw| := by
  rcases Nat.eq_zero_or_pos raw with rfl | hpos
  · have hexact : voltsValue 0 = batteryReading 0 := (voltsValue_eq_reading_iff h).mpr (dvd_zero 5)
    rw [hexact, sub_self, abs_zero]
    exact abs_pos.mpr (sub_ne_zero.mpr (hexact ▸ hne))
  · have hplace : (0 : Rat) < 2 ^ voltsShift raw := by positivity
    have hscaled : voltsValue raw * 2 ^ voltsShift raw = voltsSignificand raw := div_mul_cancel₀ _ hplace.ne'
    have hne' : w * 2 ^ voltsShift raw ≠ voltsSignificand raw := by
      rw [← hscaled]
      exact fun heq => hne (mul_right_cancel₀ hplace.ne' heq)
    have hlt := significand_nearest (voltsSignificand_error h) (scaled_mem hpos h).1
      (binary64Value_scaled hw (voltsShift raw)) hne'
    rw [← hscaled, scaled_distance, scaled_distance] at hlt
    exact lt_of_mul_lt_mul_left hlt (by positivity)

/-! ## The port -/

/-- On a buffer of two bytes or more DECODE_BATTERY completes with the pattern of the raw value on `rsp_volts` (R63). -/
theorem exec_decodeBattery_volts (b0 b1 : Byte) (rest : List Byte) (s : State) :
    ∃ t, exec (.decodeBattery (b0 :: b1 :: rest)) s = .next t ∧
      t.rsp.volts = voltsPattern (b0.toNat * 256 + b1.toNat) :=
  ⟨_, exec_eq _ s, by rw [respondWith_rsp, respond_decodeBattery_cons, responsePorts_volts]⟩

theorem raw_lt_65536 (b0 b1 : Byte) : b0.toNat * 256 + b1.toNat < 65536 := by
  have := b0.isLt
  have := b1.isLt
  omega

end Sys2Proof.Machine
end

section
/-! The statements about the binary64 pattern, settled. -/

namespace Sys2Proof.Machine

/-- Settles O25: the pattern's exponent field is that of a normal number, and its value is the reading exactly when the
scaled quotient is whole. -/
theorem voltsPatternClass : Obligations.VoltsPatternClass := by
  intro b0 b1 rest s
  obtain ⟨t, hexec, hvolts⟩ := exec_decodeBattery_volts b0 b1 rest s
  have hlt := raw_lt_65536 b0 b1
  obtain ⟨hsign, hfinite, hnormal, hzero⟩ := voltsPattern_class hlt
  refine ⟨t, voltsValue (b0.toNat * 256 + b1.toNat), hexec, ?_⟩
  rw [hvolts]
  exact ⟨binary64Value_voltsPattern hlt, hsign, hfinite, hnormal, hzero, voltsValue_eq_reading_iff hlt⟩

/-- Settles O26: the significand is off by less than half a place, and no other binary64 number is nearer than a place,
or than the first number of the binade. -/
theorem voltsPatternIsNearest : Obligations.VoltsPatternIsNearest := by
  intro b0 b1 rest s
  obtain ⟨t, hexec, hvolts⟩ := exec_decodeBattery_volts b0 b1 rest s
  have hlt := raw_lt_65536 b0 b1
  exact ⟨t, voltsValue (b0.toNat * 256 + b1.toNat), hexec, hvolts ▸ binary64Value_voltsPattern hlt,
    fun b w hw hne => voltsValue_nearest hlt hw hne⟩

end Sys2Proof.Machine
end

section
/-! Written text read back, piece by piece (30_encoding.md R45): numbers and bytes, the pieces between separators, and a
whole line. -/

namespace Sys2Proof.Machine

/-! ## Pieces: texts without a space, a separator or a comment mark -/

/-- What stands between separators: one character or more, none of which ends a piece or a line. -/
structure Piece (t : Text) : Prop where
  ne_nil : t ≠ []
  plain  : ∀ ch ∈ t, ch ≠ ' ' ∧ ch ≠ ',' ∧ ch ≠ ';'

/-- A text that begins and ends with something else than a space. -/
structure Bounded (t : Text) : Prop where
  head : ∃ ch ∈ t.head?, ch ≠ ' '
  last : ∃ ch ∈ t.getLast?, ch ≠ ' '

theorem Piece.bounded {t : Text} (h : Piece t) : Bounded t where
  head := ⟨t.head h.ne_nil, List.head?_eq_some_head h.ne_nil, (h.plain _ (List.head_mem _)).1⟩
  last := ⟨t.getLast h.ne_nil, List.getLast?_eq_some_getLast h.ne_nil, (h.plain _ (List.getLast_mem _)).1⟩

/-- Whatever stands between two bounded texts, the whole is bounded. -/
theorem Bounded.append {a b : Text} (ha : Bounded a) (hb : Bounded b) (mid : Text) : Bounded (a ++ mid ++ b) where
  head := by
    obtain ⟨ch, hch, hne⟩ := ha.head
    exact ⟨ch, List.mem_head?_append_of_mem_head? (List.mem_head?_append_of_mem_head? hch), hne⟩
  last := by
    obtain ⟨ch, hch, hne⟩ := hb.last
    exact ⟨ch, List.mem_getLast?_append_of_mem_getLast? hch, hne⟩

theorem Bounded.ne_nil {t : Text} (h : Bounded t) : t ≠ [] := by
  rintro rfl
  obtain ⟨ch, hch, -⟩ := h.head
  cases hch

/-- Nothing is dropped from the front of a text that does not begin with a space. -/
theorem dropSpaces_of_head {t : Text} (h : ∃ ch ∈ t.head?, ch ≠ ' ') : t.dropWhile (fun ch => ch = ' ') = t := by
  obtain ⟨ch, hch, hne⟩ := h
  cases t with
  | nil => rfl
  | cons a rest =>
    obtain rfl : a = ch := by simpa using hch
    exact List.dropWhile_cons_of_neg (by simpa using hne)

theorem trimText_of_bounded {t : Text} (h : Bounded t) : trimText t = t := by
  rw [trimText, dropSpaces_of_head h.head, dropSpaces_of_head (by simpa using h.last), List.reverse_reverse]

theorem trimText_cons_space (t : Text) : trimText (' ' :: t) = trimText t := rfl

/-! ## Numbers and bytes -/

theorem digitValue_digitChar {d : Nat} (h : d < 10) : digitValue d.digitChar = some d := by
  revert d
  decide

theorem readDigits_append (acc : Nat) (a b : Text) :
    readDigits acc (a ++ b) = (readDigits acc a).bind (fun acc' => readDigits acc' b) := by
  induction a generalizing acc with
  | nil => rfl
  | cons ch rest ih => simp only [List.cons_append, readDigits, ih, Option.bind_assoc]

theorem readDigits_natText (n : Nat) : readDigits 0 (natText n) = some n := by
  induction n using Nat.strongRecOn with
  | _ n ih =>
    rw [natText]
    rcases Nat.lt_or_ge n 10 with hlt | hge
    · rw [Nat.toDigits_of_lt_base hlt, readDigits, digitValue_digitChar hlt]
      exact congrArg some (Nat.zero_add n)
    · rw [Nat.toDigits_of_base_le (by decide) hge, readDigits_append, ← natText, ih (n / 10) (by omega),
        Option.bind_some, readDigits, digitValue_digitChar (Nat.mod_lt n (by decide))]
      exact congrArg some (Nat.div_add_mod' n 10)

theorem natText_ne_nil (n : Nat) : natText n ≠ [] := Nat.toDigits_ne_nil

theorem readNat_natText (n : Nat) : readNat (natText n) = some n := by
  rw [readNat, if_neg (natText_ne_nil n), readDigits_natText]

/-- A decimal number consists of digits. -/
theorem isDigit_of_mem_natText {n : Nat} {ch : Char} (h : ch ∈ natText n) : ch.isDigit = true :=
  Nat.isDigit_of_mem_toDigits (by decide) (by decide) h

theorem natText_piece (n : Nat) : Piece (natText n) where
  ne_nil := natText_ne_nil n
  plain ch hch := by
    have hdigit := isDigit_of_mem_natText hch
    refine ⟨?_, ?_, ?_⟩ <;> rintro rfl <;> exact absurd hdigit (by decide)

theorem intText_piece (v : Int) : Piece (intText v) := by
  have hnat := natText_piece v.natAbs
  unfold intText
  split
  · exact ⟨List.cons_ne_nil _ _, List.forall_mem_cons.mpr ⟨by decide, hnat.plain⟩⟩
  · exact hnat

/-- Without a minus sign an integer is read as a natural number. -/
theorem readInt_of_no_sign {t : Text} (h : ∀ rest, t ≠ '-' :: rest) :
    readInt t = (readNat t).map (fun n => (n : Int)) := by
  unfold readInt
  split
  · next rest => exact absurd rfl (h rest)
  · rfl

theorem readInt_intText (v : Int) : readInt (intText v) = some v := by
  unfold intText
  split
  · next hneg =>
    have hvalue : -(v.natAbs : Int) = v := by omega
    rw [readInt, readNat_natText]
    exact congrArg some hvalue
  · next hnonneg =>
    have hsign : ∀ rest, natText v.natAbs ≠ '-' :: rest := fun rest heq =>
      absurd (isDigit_of_mem_natText (heq ▸ List.mem_cons_self)) (by decide)
    have hvalue : (v.natAbs : Int) = v := by omega
    rw [readInt_of_no_sign hsign, readNat_natText]
    exact congrArg some hvalue

theorem hexValue_hexDigit {n : Nat} (h : n < 16) : hexValue (hexDigit n) = some n := by
  revert n
  decide

theorem hexDigit_plain {n : Nat} (h : n < 16) : hexDigit n ≠ ' ' ∧ hexDigit n ≠ ',' ∧ hexDigit n ≠ ';' := by
  revert n
  decide

theorem byteText_piece (b : Byte) : Piece (byteText b) where
  ne_nil := List.cons_ne_nil _ _
  plain ch hch := by
    have hb := b.isLt
    simp only [byteText, hexText, List.mem_cons, List.not_mem_nil, or_false] at hch
    rcases hch with rfl | rfl | rfl | rfl
    · decide
    · decide
    · exact hexDigit_plain (by omega)
    · exact hexDigit_plain (by omega)

theorem readByte_byteText (b : Byte) : readByte (byteText b) = some b := by
  have hb := b.isLt
  rw [byteText, hexText, readByte, hexValue_hexDigit (by omega), hexValue_hexDigit (by omega)]
  refine congrArg some (BitVec.eq_of_toNat_eq ?_)
  rw [BitVec.toNat_ofNat, Nat.div_add_mod', Nat.mod_eq_of_lt hb]

/-! ## Pieces and separators -/

/-- The separator of written lists (R45; the space is log entry 18). -/
def listSep : Text := [',', ' ']

theorem joinText_cons_cons (sep t t' : Text) (ts : List Text) :
    joinText sep (t :: t' :: ts) = t ++ sep ++ joinText sep (t' :: ts) := rfl

/-- Joined text has the characters of its pieces and of the separator. -/
theorem mem_joinText {sep : Text} {ch : Char} {ts : List Text} (h : ch ∈ joinText sep ts) :
    ch ∈ sep ∨ ∃ t ∈ ts, ch ∈ t := by
  induction ts with
  | nil => cases h
  | cons t ts ih =>
    cases ts with
    | nil => exact .inr ⟨t, by simp, h⟩
    | cons t' ts =>
      rw [joinText_cons_cons, List.mem_append, List.mem_append] at h
      rcases h with (ht | hsep) | hrest
      · exact .inr ⟨t, by simp, ht⟩
      · exact .inl hsep
      · rcases ih hrest with hsep | ⟨u, hu, hch⟩
        · exact .inl hsep
        · exact .inr ⟨u, List.mem_cons_of_mem _ hu, hch⟩

/-- Joined pieces do not hold a comment mark. -/
theorem semicolon_not_mem_joinText {ts : List Text} (h : ∀ t ∈ ts, Piece t) : ';' ∉ joinText listSep ts := by
  intro hmem
  rcases mem_joinText hmem with hsep | ⟨t, ht, hch⟩
  · exact absurd hsep (by decide)
  · exact ((h t ht).plain _ hch).2.2 rfl

theorem joinText_bounded {sep : Text} {ts : List Text} (hne : ts ≠ []) (h : ∀ t ∈ ts, Bounded t) :
    Bounded (joinText sep ts) := by
  induction ts with
  | nil => exact absurd rfl hne
  | cons t ts ih =>
    obtain ⟨ht, hts⟩ := List.forall_mem_cons.mp h
    cases ts with
    | nil => exact ht
    | cons t' ts => exact ht.append (ih (List.cons_ne_nil _ _) hts) sep

theorem splitText_ne_nil (sep : Char) (t : Text) : splitText sep t ≠ [] := by
  cases t with
  | nil => exact List.cons_ne_nil _ _
  | cons ch rest =>
    rw [splitText]
    split
    · exact List.cons_ne_nil _ _
    · split <;> exact List.cons_ne_nil _ _

theorem splitText_cons_sep (sep : Char) (t : Text) : splitText sep (sep :: t) = [] :: splitText sep t := by
  rw [splitText, if_pos rfl]

/-- A character that is no separator goes to the first piece. -/
theorem splitText_cons_of_ne {sep ch : Char} (h : ch ≠ sep) {t first : Text} {more : List Text}
    (ht : splitText sep t = first :: more) : splitText sep (ch :: t) = (ch :: first) :: more := by
  rw [splitText, if_neg h, ht]

/-- A piece at the front goes to the first piece. -/
theorem splitText_append {t rest first : Text} {more : List Text} (ht : ∀ ch ∈ t, ch ≠ ',')
    (hrest : splitText ',' rest = first :: more) : splitText ',' (t ++ rest) = (t ++ first) :: more := by
  induction t with
  | nil => exact hrest
  | cons ch t ih =>
    obtain ⟨hch, ht⟩ := List.forall_mem_cons.mp ht
    exact splitText_cons_of_ne hch (ih ht)

/-- Spaces in front do not change the trimmed pieces. -/
theorem map_trimText_splitText_cons_space (t : Text) :
    (splitText ',' (' ' :: t)).map trimText = (splitText ',' t).map trimText := by
  cases ht : splitText ',' t with
  | nil => exact absurd ht (splitText_ne_nil _ _)
  | cons first more =>
    rw [splitText_cons_of_ne (by decide) ht, List.map_cons, List.map_cons, trimText_cons_space]

/-- Splitting joined pieces and trimming gives the pieces back. -/
theorem map_trimText_splitText_joinText {ts : List Text} (hne : ts ≠ []) (h : ∀ t ∈ ts, Piece t) :
    (splitText ',' (joinText listSep ts)).map trimText = ts := by
  induction ts with
  | nil => exact absurd rfl hne
  | cons t ts ih =>
    obtain ⟨ht, hts⟩ := List.forall_mem_cons.mp h
    have hcomma : ∀ ch ∈ t, ch ≠ ',' := fun ch hch => (ht.plain ch hch).2.1
    cases ts with
    | nil =>
      have hsplit : splitText ',' (t ++ []) = [t ++ []] := splitText_append hcomma rfl
      rw [List.append_nil] at hsplit
      rw [joinText, hsplit, List.map_singleton, trimText_of_bounded ht.bounded]
    | cons t' ts =>
      have hsplit : splitText ',' (t ++ ',' :: ' ' :: joinText listSep (t' :: ts)) =
          (t ++ []) :: splitText ',' (' ' :: joinText listSep (t' :: ts)) :=
        splitText_append hcomma (splitText_cons_sep _ _)
      rw [joinText_cons_cons, List.append_assoc]
      exact (congrArg (List.map trimText) hsplit).trans (by
        rw [List.map_cons, map_trimText_splitText_cons_space, ih (List.cons_ne_nil _ _) hts, List.append_nil,
          trimText_of_bounded ht.bounded])

/-! ## The operands of a line -/

/-- The four pieces of an encode's operands. -/
def operandPieces (x : Lanes Int) : List Text := [intText x.m1, intText x.m2, intText x.m3, intText x.m4]

theorem operandsText_eq (x : Lanes Int) : operandsText x = joinText listSep (operandPieces x) := rfl

theorem operandPieces_piece (x : Lanes Int) : ∀ t ∈ operandPieces x, Piece t := by
  simp only [operandPieces, List.forall_mem_cons, intText_piece, true_and]
  exact List.forall_mem_nil _

theorem readOperands_operandsText (x : Lanes Int) : readOperands (operandsText x) = some x := by
  have hpieces : (splitText ',' (operandsText x)).map trimText = operandPieces x :=
    map_trimText_splitText_joinText (List.cons_ne_nil _ _) (operandPieces_piece x)
  have hread : (splitText ',' (operandsText x)).map (fun piece => readInt (trimText piece)) =
      (operandPieces x).map readInt := by
    rw [← hpieces, List.map_map]
    rfl
  rw [readOperands, hread]
  simp only [operandPieces, List.map_cons, List.map_nil, readInt_intText]

/-! ## The buffer of a line -/

theorem bytePieces_piece (buf : List Byte) : ∀ t ∈ buf.map byteText, Piece t := by
  intro t ht
  obtain ⟨b, -, rfl⟩ := List.mem_map.mp ht
  exact byteText_piece b

theorem readAll_comp_trimText {α : Type} (read : Text → Option α) (ts : List Text) :
    readAll (fun piece => read (trimText piece)) ts = readAll read (ts.map trimText) := by
  induction ts with
  | nil => rfl
  | cons t ts ih => simp only [readAll, List.map_cons, ih]

theorem readAll_bytePieces (buf : List Byte) : readAll readByte (buf.map byteText) = some buf := by
  induction buf with
  | nil => rfl
  | cons b buf ih => rw [List.map_cons, readAll, readByte_byteText, ih, Option.bind_some, Option.map_some]

theorem readBytes_joinText (buf : List Byte) : readBytes (joinText listSep (buf.map byteText)) = some buf := by
  cases buf with
  | nil => rfl
  | cons b buf =>
    have hne : (b :: buf).map byteText ≠ [] := List.cons_ne_nil _ _
    have hpiece := bytePieces_piece (b :: buf)
    have hbounded : Bounded (joinText listSep ((b :: buf).map byteText)) :=
      joinText_bounded hne fun t ht => (hpiece t ht).bounded
    rw [readBytes, trimText_of_bounded hbounded, if_neg hbounded.ne_nil, readAll_comp_trimText,
      map_trimText_splitText_joinText hne hpiece, readAll_bytePieces]

theorem readBufferText_bufferText (buf : List Byte) : readBufferText (bufferText buf) = some buf := by
  rw [bufferText, readBufferText, if_pos List.getLast?_concat, List.dropLast_concat]
  exact readBytes_joinText buf

/-! ## A whole line -/

/-- What follows a mnemonic: it is bounded and holds no comment mark. -/
structure LineBody (body : Text) : Prop where
  bounded    : Bounded body
  no_comment : ';' ∉ body

theorem operandsText_lineBody (x : Lanes Int) : LineBody (operandsText x) where
  bounded := joinText_bounded (List.cons_ne_nil _ _) fun t ht => (operandPieces_piece x t ht).bounded
  no_comment := semicolon_not_mem_joinText (operandPieces_piece x)

theorem bufferText_lineBody (buf : List Byte) : LineBody (bufferText buf) where
  bounded := ⟨⟨'[', rfl, by decide⟩, ⟨']', List.getLast?_concat (l := '[' :: joinText listSep (buf.map byteText)),
    by decide⟩⟩
  no_comment := by
    have hinside := semicolon_not_mem_joinText (bytePieces_piece buf)
    simp only [bufferText, List.mem_cons, List.mem_append, List.not_mem_nil, or_false]
    rintro (h | h | h)
    · exact absurd h (by decide)
    · exact hinside h
    · exact absurd h (by decide)

/-- A line is cut into its mnemonic and what follows. -/
theorem splitMnemonic_line {m body : Text} (hm : Piece m) (hbody : LineBody body) :
    splitMnemonic (trimText (dropComment (m ++ [' '] ++ body))) = (m, body) := by
  have hcomment : dropComment (m ++ [' '] ++ body) = m ++ [' '] ++ body := by
    refine List.takeWhile_eq_self_iff.mpr fun ch hch => decide_eq_true ?_
    rintro rfl
    rw [List.mem_append, List.mem_append] at hch
    rcases hch with (hmem | hspace) | hmem
    · exact (hm.plain _ hmem).2.2 rfl
    · exact absurd hspace (by decide)
    · exact hbody.no_comment hmem
  have hspace : ∀ ch ∈ m, decide (ch ≠ ' ') = true := fun ch hch => decide_eq_true (hm.plain ch hch).1
  rw [hcomment, trimText_of_bounded (hm.bounded.append hbody.bounded _), splitMnemonic, List.append_assoc,
    List.takeWhile_append_of_pos hspace, List.dropWhile_append_of_pos hspace]
  exact Prod.ext (List.append_nil m) ((trimText_cons_space body).trans (trimText_of_bounded hbody.bounded))

section
variable {line body : Text}

theorem assemble_encodeSpeeds
    (h : splitMnemonic (trimText (dropComment line)) = ("ENCODE_SPEEDS".toList, body)) :
    assemble line = (readOperands body).map Instr.encodeSpeeds := by
  simp only [assemble, h]
  rw [if_pos trivial]

theorem assemble_encodePwm
    (h : splitMnemonic (trimText (dropComment line)) = ("ENCODE_PWM".toList, body)) :
    assemble line = (readOperands body).map Instr.encodePwm := by
  simp only [assemble, h]
  rw [if_neg (by decide), if_pos trivial]

theorem assemble_decodeBattery
    (h : splitMnemonic (trimText (dropComment line)) = ("DECODE_BATTERY".toList, body)) :
    assemble line = (readBufferText body).map Instr.decodeBattery := by
  simp only [assemble, h]
  rw [if_neg (by decide), if_neg (by decide), if_pos trivial]

theorem assemble_decodeEncoder
    (h : splitMnemonic (trimText (dropComment line)) = ("DECODE_ENCODER".toList, body)) :
    assemble line = (readBufferText body).map Instr.decodeEncoder := by
  simp only [assemble, h]
  rw [if_neg (by decide), if_neg (by decide), if_neg (by decide), if_pos trivial]

end

/-- The assembler reads back the text of every request. -/
theorem assemble_requestText (i : Instr) : assemble (requestText i) = some i := by
  cases i with
  | encodeSpeeds x =>
    have hm : Piece "ENCODE_SPEEDS".toList := ⟨by decide, by simp⟩
    have hsplit := splitMnemonic_line hm (operandsText_lineBody x)
    exact (assemble_encodeSpeeds hsplit).trans (by rw [readOperands_operandsText, Option.map_some])
  | encodePwm x =>
    have hm : Piece "ENCODE_PWM".toList := ⟨by decide, by simp⟩
    have hsplit := splitMnemonic_line hm (operandsText_lineBody x)
    exact (assemble_encodePwm hsplit).trans (by rw [readOperands_operandsText, Option.map_some])
  | decodeBattery buf =>
    have hm : Piece "DECODE_BATTERY".toList := ⟨by decide, by simp⟩
    have hsplit := splitMnemonic_line hm (bufferText_lineBody buf)
    exact (assemble_decodeBattery hsplit).trans (by rw [readBufferText_bufferText, Option.map_some])
  | decodeEncoder buf =>
    have hm : Piece "DECODE_ENCODER".toList := ⟨by decide, by simp⟩
    have hsplit := splitMnemonic_line hm (bufferText_lineBody buf)
    exact (assemble_decodeEncoder hsplit).trans (by rw [readBufferText_bufferText, Option.map_some])

end Sys2Proof.Machine
end

section
/-! The statement about the text of requests, settled. -/

namespace Sys2Proof.Machine

/-- Settles O11: a written line is cut at its first space and its separators into the pieces it was written from; the
two pseudo-instructions are closed terms. -/
theorem assembledTextIsTheRequest : Obligations.AssembledTextIsTheRequest :=
  ⟨assemble_requestText, by decide, by decide, by decide, by decide⟩

end Sys2Proof.Machine
end
